-- ==== Sys2Proof/Word.lean ====
section
/-! DEFINITION. The byte and the machine word of the ebcvm CORE (spec 10_state.md R20, 20_memory.md R40). -/

namespace Sys2Proof

/-- One byte of memory or of the instruction stream (R40). -/
abbrev Byte := BitVec 8

/-- A register, an address or the program counter: `XLEN` = `AWIDTH` = 64 bits (R8, R20, R25, R40). -/
abbrev Word := BitVec 64

end Sys2Proof
end

