-- ==== Sys2Proof/Config.lean ====
section
/-! DEFINITION. The closed name sets of the spec (registers, opcode tags, error kinds, refusal reasons) and the parameters of
00_scope.md R8, which are the model's configuration. The default values stand in Decode.lean (`Config.default`). -/

namespace Sys2Proof

/-- The eight register identifiers R0 to R7 (10_state.md R20, R23). R0 is the stack pointer by convention only (R21). -/
inductive RegId where
  | r0 | r1 | r2 | r3 | r4 | r5 | r6 | r7
deriving DecidableEq, Repr

/-- The opcode tags of the generic format that the source names (30_encoding.md R67, classes nop, ret, unary, binary, push). -/
inductive GenericOp where
  | nop | ret | not | neg
  | add | sub | mul | mulu | div | divu | mod | modu | and | or | xor | shl | shr
  | push
deriving DecidableEq, Repr

/-- The nine MOV tags, named by their two suffix letters (30_encoding.md R66, class mov). -/
inductive MovOp where
  | bw | bd | ww | wd | dw | dd | qw | qd | qq
deriving DecidableEq, Repr

/-- The thirty EBC names of R68 that the source does not name (30_encoding.md R67, class unlisted). -/
inductive UnlistedOp where
  | break_ | jmp | jmp8 | call
  | cmpeq | cmplte | cmpgte | cmpulte | cmpugte
  | ashr | extndb | extndw | extndd
  | movsnw | movsnd | loadsp | storesp | pop
  | cmpieq | cmpilte | cmpigte | cmpiulte | cmpiugte
  | movnw | movnd | pushn | popn | movi | movin | movrel
deriving DecidableEq, Repr

/-- A symbolic opcode tag, what the Opcode Table answers (30_encoding.md R67, R68). -/
inductive Opcode where
  | generic (op : GenericOp)
  | mov (op : MovOp)
  | unlisted (op : UnlistedOp)
deriving DecidableEq, Repr

/-- The opcode classes of 30_encoding.md R67. -/
inductive OpcodeClass where
  | nop | ret | unary | binary | push | mov | unlisted
deriving DecidableEq, Repr

/-- Each tag belongs to exactly one class (30_encoding.md R67). -/
def Opcode.cls : Opcode → OpcodeClass
  | .generic .nop => .nop
  | .generic .ret => .ret
  | .generic .not => .unary
  | .generic .neg => .unary
  | .generic .push => .push
  | .generic _ => .binary
  | .mov _ => .mov
  | .unlisted _ => .unlisted

/-- The four error kinds (60_exceptions.md R200). `invalidOperand` cannot occur with 3-bit register fields (R201). -/
inductive ErrorKind where
  | truncated        -- DecodeError::Truncated
  | invalidOperand   -- DecodeError::InvalidOperand
  | outOfBounds      -- MemoryError::OutOfBounds
  | divisionByZero   -- ExecutionError::DivisionByZero
deriving DecidableEq, Repr

/-- The spec's identifier of an error kind (60_exceptions.md R200, first column). -/
def ErrorKind.code : ErrorKind → Nat
  | .truncated => 1
  | .invalidOperand => 2
  | .outOfBounds => 3
  | .divisionByZero => 4

/-- Why a step was refused by the spec's own rules: the reasons of 60_exceptions.md R207, which the decoder or the executor
gives and `State.refused` keeps. -/
inductive RefuseReason where
  /-- A raw opcode of the unlisted class under `P_UNLISTED_POLICY = refuse` (R70). -/
  | unlistedOpcode (raw : BitVec 6)
  /-- PUSH with operand1 = R0 (R152). -/
  | pushOfStackPointer
  /-- MOV with an index flag on a direct operand (R160). -/
  | indexOnDirectOperand
  /-- DIV or MOD of the most negative value by -1 (R128, R130). -/
  | signedDivisionOverflow
  /-- SHL or SHR by W or more (R135, R136). -/
  | shiftCountTooLarge
  /-- A read of a register the launch gave no value (R241). Never set: this model admits no such launch (log entry 7). -/
  | unsuppliedRegister
deriving DecidableEq, Repr

/-- How decoding or executing an instruction ends without a result: `raise E` or `refuse(reason)` (00_scope.md R10,
10_state.md R31). -/
inductive Stop where
  | error (e : ErrorKind)
  | refuse (r : RefuseReason)
deriving DecidableEq, Repr

/-- `P_UNLISTED_POLICY` (R8, R70). -/
inductive UnlistedPolicy where
  | refuse | nop
deriving DecidableEq, Repr

/-- `P_W32_UPPER` (R8, R104): bits 63:32 of a register written by a 32-bit NOT, NEG or binary operation. -/
inductive W32Upper where
  | zero | sign | preserve
deriving DecidableEq, Repr

/-- `P_SHR_KIND` (R8, R136). -/
inductive ShrKind where
  | arith | logical
deriving DecidableEq, Repr

/-- `P_MOV_REG_EXT` (R8, R161): extension of a MOV value narrower than 64 bits written to a register. -/
inductive MovRegExt where
  | zero | sign
deriving DecidableEq, Repr

/-- The parameters of 00_scope.md R8 that a run keeps fixed. `opcodeMap` lists the assigned raw opcode values; a value it does
not list has no assigned meaning (30_encoding.md R68, R69). -/
structure Config where
  memSize        : Nat
  opcodeMap      : List (BitVec 6 × Opcode)
  unlistedPolicy : UnlistedPolicy
  w32Upper       : W32Upper
  shrKind        : ShrKind
  movRegExt      : MovRegExt
deriving DecidableEq, Repr

/-- The named tags other than NOP: each sits at exactly one raw value of any `OPCODE_MAP` (30_encoding.md R68). -/
def Opcode.named : List Opcode :=
  [.generic .ret, .generic .not, .generic .neg, .generic .add, .generic .sub, .generic .mul, .generic .mulu, .generic .div,
   .generic .divu, .generic .mod, .generic .modu, .generic .and, .generic .or, .generic .xor, .generic .shl, .generic .shr,
   .generic .push, .mov .bw, .mov .bd, .mov .ww, .mov .wd, .mov .dw, .mov .dd, .mov .qw, .mov .qd, .mov .qq]

/-- A configuration the spec admits: 1 ≤ `MEM_SIZE` ≤ 2^64 (92 D2); no raw value is assigned twice, and every named tag has
exactly one raw value (30_encoding.md R68). -/
def Config.wf (c : Config) : Bool :=
  1 ≤ c.memSize && c.memSize ≤ 2 ^ 64 && (c.opcodeMap.map Prod.fst).Nodup &&
    Opcode.named.all fun op => (c.opcodeMap.map Prod.snd).count op == 1

end Sys2Proof
end

