-- ==== Sys2Proof/Syntax.lean ====
section
/-! DEFINITION. The instruction record's two payloads (10_state.md R27) and the instructions, one constructor for each mnemonic of
spec/opcode_table.json. The eight table rows of NOP (raw 0x27, 0x34, 0x3A-0x3F) are the one constructor `nop`, whose record
keeps the raw opcode (90_conflicts.md C5). -/

namespace Sys2Proof

/-- The record of a generic (non-MOV) instruction: the shared part and the generic payload (R27). `imm` is the 32-bit field of
R71, 0 when `isImm` is false. -/
structure GenericRec where
  rawOpcode   : BitVec 6
  isImm       : Bool
  is64op      : Bool
  operand1    : RegId
  op1Indirect : Bool
  operand2    : RegId
  op2Indirect : Bool
  imm         : BitVec 32
deriving DecidableEq, Repr

/-- The record of a MOV instruction: the shared part and the MOV payload (R27). `op_len` and `idx_len` are fixed by the opcode
(R66), so the constructor of `Instr` stands for them; an index is unsigned here (R72), 0 when its flag is false. -/
structure MovRec where
  rawOpcode   : BitVec 6
  operand1    : RegId
  op1Indirect : Bool
  operand2    : RegId
  op2Indirect : Bool
  isOp1Idx    : Bool
  isOp2Idx    : Bool
  op1Idx      : Word
  op2Idx      : Word
deriving DecidableEq, Repr

/-- The instructions of spec/opcode_table.json. An `unlisted…` constructor is a raw value that EBC assigns and the source does not
name (30_encoding.md R68, R70). -/
inductive Instr where
  | nop (r : GenericRec)
  | ret (r : GenericRec)
  | not (r : GenericRec)
  | neg (r : GenericRec)
  | add (r : GenericRec)
  | sub (r : GenericRec)
  | mul (r : GenericRec)
  | mulu (r : GenericRec)
  | div (r : GenericRec)
  | divu (r : GenericRec)
  | mod (r : GenericRec)
  | modu (r : GenericRec)
  | and (r : GenericRec)
  | or (r : GenericRec)
  | xor (r : GenericRec)
  | shl (r : GenericRec)
  | shr (r : GenericRec)
  | push (r : GenericRec)
  | movbw (r : MovRec)
  | movbd (r : MovRec)
  | movww (r : MovRec)
  | movwd (r : MovRec)
  | movdw (r : MovRec)
  | movdd (r : MovRec)
  | movqw (r : MovRec)
  | movqd (r : MovRec)
  | movqq (r : MovRec)
  | unlistedBreak (r : GenericRec)
  | unlistedJmp (r : GenericRec)
  | unlistedJmp8 (r : GenericRec)
  | unlistedCall (r : GenericRec)
  | unlistedCmpeq (r : GenericRec)
  | unlistedCmplte (r : GenericRec)
  | unlistedCmpgte (r : GenericRec)
  | unlistedCmpulte (r : GenericRec)
  | unlistedCmpugte (r : GenericRec)
  | unlistedAshr (r : GenericRec)
  | unlistedExtndb (r : GenericRec)
  | unlistedExtndw (r : GenericRec)
  | unlistedExtndd (r : GenericRec)
  | unlistedMovsnw (r : GenericRec)
  | unlistedMovsnd (r : GenericRec)
  | unlistedLoadsp (r : GenericRec)
  | unlistedStoresp (r : GenericRec)
  | unlistedPop (r : GenericRec)
  | unlistedCmpieq (r : GenericRec)
  | unlistedCmpilte (r : GenericRec)
  | unlistedCmpigte (r : GenericRec)
  | unlistedCmpiulte (r : GenericRec)
  | unlistedCmpiugte (r : GenericRec)
  | unlistedMovnw (r : GenericRec)
  | unlistedMovnd (r : GenericRec)
  | unlistedPushn (r : GenericRec)
  | unlistedPopn (r : GenericRec)
  | unlistedMovi (r : GenericRec)
  | unlistedMovin (r : GenericRec)
  | unlistedMovrel (r : GenericRec)
deriving DecidableEq, Repr

end Sys2Proof
end

