-- ==== Sys2Proof/Decode.lean ====
section
/-! DEFINITION. The Decoder (30_encoding.md): byte order, the Opcode Table, the Operand Resolver, `decode`, total on any bytes, and
after it the encoder of R76 and the host's `decodeTableWord`. -/

namespace Sys2Proof

/-! ## Byte order and extension -/

/-- `LE(b[0 ..])`: the unsigned value of bytes, the first least significant (00_scope.md R10, 20_memory.md R41). -/
def leNat : List Byte → Nat
  | [] => 0
  | b :: bs => b.toNat + 256 * leNat bs

/-- The low `n` bytes of a value, least significant first (20_memory.md R41, R43). -/
def leBytes : Nat → Nat → List Byte
  | 0, _ => []
  | n + 1, v => BitVec.ofNat 8 v :: leBytes n (v / 256)

/-- `zext_N(v)` (00_scope.md R10). -/
def zext (N : Nat) (v : Word) : Word := (v.setWidth N).setWidth 64

/-- `sext_N(v)` (00_scope.md R10). -/
def sext (N : Nat) (v : Word) : Word := (v.setWidth N).signExtend 64

/-! ## Opcode Table and Operand Resolver -/

/-- The default `OPCODE_MAP`: the EBC numbering (30_encoding.md R68, 92 D4). 0x27, 0x34 and 0x3A to 0x3F are not assigned. -/
def defaultOpcodeMap : List (BitVec 6 × Opcode) :=
  [(0x00#6, .unlisted .break_), (0x01#6, .unlisted .jmp), (0x02#6, .unlisted .jmp8), (0x03#6, .unlisted .call),
   (0x04#6, .generic .ret), (0x05#6, .unlisted .cmpeq), (0x06#6, .unlisted .cmplte), (0x07#6, .unlisted .cmpgte),
   (0x08#6, .unlisted .cmpulte), (0x09#6, .unlisted .cmpugte), (0x0A#6, .generic .not), (0x0B#6, .generic .neg),
   (0x0C#6, .generic .add), (0x0D#6, .generic .sub), (0x0E#6, .generic .mul), (0x0F#6, .generic .mulu),
   (0x10#6, .generic .div), (0x11#6, .generic .divu), (0x12#6, .generic .mod), (0x13#6, .generic .modu),
   (0x14#6, .generic .and), (0x15#6, .generic .or), (0x16#6, .generic .xor), (0x17#6, .generic .shl),
   (0x18#6, .generic .shr), (0x19#6, .unlisted .ashr), (0x1A#6, .unlisted .extndb), (0x1B#6, .unlisted .extndw),
   (0x1C#6, .unlisted .extndd), (0x1D#6, .mov .bw), (0x1E#6, .mov .ww), (0x1F#6, .mov .dw),
   (0x20#6, .mov .qw), (0x21#6, .mov .bd), (0x22#6, .mov .wd), (0x23#6, .mov .dd),
   (0x24#6, .mov .qd), (0x25#6, .unlisted .movsnw), (0x26#6, .unlisted .movsnd), (0x28#6, .mov .qq),
   (0x29#6, .unlisted .loadsp), (0x2A#6, .unlisted .storesp), (0x2B#6, .generic .push), (0x2C#6, .unlisted .pop),
   (0x2D#6, .unlisted .cmpieq), (0x2E#6, .unlisted .cmpilte), (0x2F#6, .unlisted .cmpigte), (0x30#6, .unlisted .cmpiulte),
   (0x31#6, .unlisted .cmpiugte), (0x32#6, .unlisted .movnw), (0x33#6, .unlisted .movnd), (0x35#6, .unlisted .pushn),
   (0x36#6, .unlisted .popn), (0x37#6, .unlisted .movi), (0x38#6, .unlisted .movin), (0x39#6, .unlisted .movrel)]

/-- The defaults of 00_scope.md R8. DESIGN CHOICE (log entry 5): `MEM_SIZE` is OPEN there; 0x1000 is the examples' value. -/
def Config.default : Config where
  memSize := 0x1000
  opcodeMap := defaultOpcodeMap
  unlistedPolicy := .refuse
  w32Upper := .zero
  shrKind := .arith
  movRegExt := .zero

/-- `resolve_opcode`: total over the 64 raw values, an unassigned value maps to NOP (30_encoding.md R68, R69). -/
def Config.resolveOpcode (c : Config) (raw : BitVec 6) : Opcode :=
  (c.opcodeMap.lookup raw).getD (.generic .nop)

/-- Whether the decoder refuses a raw value: an unlisted one under `P_UNLISTED_POLICY = refuse` (30_encoding.md R70). -/
def Config.refusesRaw (c : Config) (raw : BitVec 6) : Bool :=
  match c.resolveOpcode raw with
  | .unlisted _ => c.unlistedPolicy == .refuse
  | _ => false

/-- `resolve_register`: Ri for i in 0 to 7, else `DecodeError::InvalidOperand` (10_state.md R23, R31, 60_exceptions.md R201). -/
def resolveRegister (raw : Nat) : Except ErrorKind RegId :=
  match raw with
  | 0 => .ok .r0
  | 1 => .ok .r1
  | 2 => .ok .r2
  | 3 => .ok .r3
  | 4 => .ok .r4
  | 5 => .ok .r5
  | 6 => .ok .r6
  | 7 => .ok .r7
  | _ => .error .invalidOperand

/-- The 3-bit field of a register (30_encoding.md R63, R76: `reg`). -/
def RegId.field : RegId → BitVec 3
  | .r0 => 0
  | .r1 => 1
  | .r2 => 2
  | .r3 => 3
  | .r4 => 4
  | .r5 => 5
  | .r6 => 6
  | .r7 => 7

/-! ## Records, widths and lengths -/

/-- The decoder's output as a tagged variant behind one opcode (R27). -/
inductive Record where
  | generic (op : GenericOp) (r : GenericRec)
  | mov (op : MovOp) (r : MovRec)
  | unlisted (op : UnlistedOp) (r : GenericRec)
deriving DecidableEq, Repr

/-- The instruction of a generic tag. -/
def GenericOp.instr : GenericOp → GenericRec → Instr
  | .nop, r => .nop r
  | .ret, r => .ret r
  | .not, r => .not r
  | .neg, r => .neg r
  | .add, r => .add r
  | .sub, r => .sub r
  | .mul, r => .mul r
  | .mulu, r => .mulu r
  | .div, r => .div r
  | .divu, r => .divu r
  | .mod, r => .mod r
  | .modu, r => .modu r
  | .and, r => .and r
  | .or, r => .or r
  | .xor, r => .xor r
  | .shl, r => .shl r
  | .shr, r => .shr r
  | .push, r => .push r

/-- The instruction of a MOV tag. -/
def MovOp.instr : MovOp → MovRec → Instr
  | .bw, r => .movbw r
  | .bd, r => .movbd r
  | .ww, r => .movww r
  | .wd, r => .movwd r
  | .dw, r => .movdw r
  | .dd, r => .movdd r
  | .qw, r => .movqw r
  | .qd, r => .movqd r
  | .qq, r => .movqq r

/-- The instruction of an unlisted tag. -/
def UnlistedOp.instr : UnlistedOp → GenericRec → Instr
  | .break_, r => .unlistedBreak r
  | .jmp, r => .unlistedJmp r
  | .jmp8, r => .unlistedJmp8 r
  | .call, r => .unlistedCall r
  | .cmpeq, r => .unlistedCmpeq r
  | .cmplte, r => .unlistedCmplte r
  | .cmpgte, r => .unlistedCmpgte r
  | .cmpulte, r => .unlistedCmpulte r
  | .cmpugte, r => .unlistedCmpugte r
  | .ashr, r => .unlistedAshr r
  | .extndb, r => .unlistedExtndb r
  | .extndw, r => .unlistedExtndw r
  | .extndd, r => .unlistedExtndd r
  | .movsnw, r => .unlistedMovsnw r
  | .movsnd, r => .unlistedMovsnd r
  | .loadsp, r => .unlistedLoadsp r
  | .storesp, r => .unlistedStoresp r
  | .pop, r => .unlistedPop r
  | .cmpieq, r => .unlistedCmpieq r
  | .cmpilte, r => .unlistedCmpilte r
  | .cmpigte, r => .unlistedCmpigte r
  | .cmpiulte, r => .unlistedCmpiulte r
  | .cmpiugte, r => .unlistedCmpiugte r
  | .movnw, r => .unlistedMovnw r
  | .movnd, r => .unlistedMovnd r
  | .pushn, r => .unlistedPushn r
  | .popn, r => .unlistedPopn r
  | .movi, r => .unlistedMovi r
  | .movin, r => .unlistedMovin r
  | .movrel, r => .unlistedMovrel r

/-- The instruction that a record stands for. -/
def Record.instr : Record → Instr
  | .generic op r => op.instr r
  | .mov op r => op.instr r
  | .unlisted op r => op.instr r

/-- The record of an instruction. -/
def Instr.record : Instr → Record
  | .nop r => .generic .nop r
  | .ret r => .generic .ret r
  | .not r => .generic .not r
  | .neg r => .generic .neg r
  | .add r => .generic .add r
  | .sub r => .generic .sub r
  | .mul r => .generic .mul r
  | .mulu r => .generic .mulu r
  | .div r => .generic .div r
  | .divu r => .generic .divu r
  | .mod r => .generic .mod r
  | .modu r => .generic .modu r
  | .and r => .generic .and r
  | .or r => .generic .or r
  | .xor r => .generic .xor r
  | .shl r => .generic .shl r
  | .shr r => .generic .shr r
  | .push r => .generic .push r
  | .movbw r => .mov .bw r
  | .movbd r => .mov .bd r
  | .movww r => .mov .ww r
  | .movwd r => .mov .wd r
  | .movdw r => .mov .dw r
  | .movdd r => .mov .dd r
  | .movqw r => .mov .qw r
  | .movqd r => .mov .qd r
  | .movqq r => .mov .qq r
  | .unlistedBreak r => .unlisted .break_ r
  | .unlistedJmp r => .unlisted .jmp r
  | .unlistedJmp8 r => .unlisted .jmp8 r
  | .unlistedCall r => .unlisted .call r
  | .unlistedCmpeq r => .unlisted .cmpeq r
  | .unlistedCmplte r => .unlisted .cmplte r
  | .unlistedCmpgte r => .unlisted .cmpgte r
  | .unlistedCmpulte r => .unlisted .cmpulte r
  | .unlistedCmpugte r => .unlisted .cmpugte r
  | .unlistedAshr r => .unlisted .ashr r
  | .unlistedExtndb r => .unlisted .extndb r
  | .unlistedExtndw r => .unlisted .extndw r
  | .unlistedExtndd r => .unlisted .extndd r
  | .unlistedMovsnw r => .unlisted .movsnw r
  | .unlistedMovsnd r => .unlisted .movsnd r
  | .unlistedLoadsp r => .unlisted .loadsp r
  | .unlistedStoresp r => .unlisted .storesp r
  | .unlistedPop r => .unlisted .pop r
  | .unlistedCmpieq r => .unlisted .cmpieq r
  | .unlistedCmpilte r => .unlisted .cmpilte r
  | .unlistedCmpigte r => .unlisted .cmpigte r
  | .unlistedCmpiulte r => .unlisted .cmpiulte r
  | .unlistedCmpiugte r => .unlisted .cmpiugte r
  | .unlistedMovnw r => .unlisted .movnw r
  | .unlistedMovnd r => .unlisted .movnd r
  | .unlistedPushn r => .unlisted .pushn r
  | .unlistedPopn r => .unlisted .popn r
  | .unlistedMovi r => .unlisted .movi r
  | .unlistedMovin r => .unlisted .movin r
  | .unlistedMovrel r => .unlisted .movrel r

/-- The opcode tag of a record. -/
def Record.opcode : Record → Opcode
  | .generic op _ => .generic op
  | .mov op _ => .mov op
  | .unlisted op _ => .unlisted op

/-- The header's bits 5:0 as fetched (R27). -/
def Record.rawOpcode : Record → BitVec 6
  | .generic _ r => r.rawOpcode
  | .mov _ r => r.rawOpcode
  | .unlisted _ r => r.rawOpcode

/-- `op_len`: bytes moved, from the first suffix letter (30_encoding.md R66). -/
def MovOp.opLen : MovOp → Nat
  | .bw => 1
  | .bd => 1
  | .ww => 2
  | .wd => 2
  | .dw => 4
  | .dd => 4
  | .qw => 8
  | .qd => 8
  | .qq => 8

/-- `idx_len`: bytes of each index, from the second suffix letter (30_encoding.md R66). -/
def MovOp.idxLen : MovOp → Nat
  | .bw => 2
  | .bd => 4
  | .ww => 2
  | .wd => 4
  | .dw => 2
  | .dd => 4
  | .qw => 2
  | .qd => 4
  | .qq => 8

/-- Length in bytes of a generic instruction (30_encoding.md R75). -/
def genericLen (isImm : Bool) : Nat := if isImm then 4 else 2

/-- Length in bytes of a MOV instruction with index width `L` (30_encoding.md R75). -/
def movLen (L : Nat) (f1 f2 : Bool) : Nat := 2 + L * (f1.toNat + f2.toNat)

/-- Length in bytes of an instruction (30_encoding.md R75). -/
def Instr.length (i : Instr) : Nat :=
  match i.record with
  | .generic _ r => genericLen r.isImm
  | .mov op r => movLen op.idxLen r.isOp1Idx r.isOp2Idx
  | .unlisted _ r => genericLen r.isImm

/-- The longest instruction is 18 bytes (30_encoding.md R75). -/
def maxLength : Nat := 18

/-! ## The decode algorithm (30_encoding.md R74) -/

/-- The header word `h`: the first byte is bits 7:0, the second bits 15:8 (30_encoding.md R60). -/
def headerWord (b0 b1 : Byte) : BitVec 16 := b1 ++ b0

/-- Header bits 5:0 (30_encoding.md R61). -/
def headerRaw (h : BitVec 16) : BitVec 6 := h.extractLsb' 0 6

/-- Header bit 6, `is_64op` or `is_op2_idx` (30_encoding.md R61, R64, R65). -/
def headerM6 (h : BitVec 16) : Bool := h.getLsbD 6

/-- Header bit 7, `is_imm` or `is_op1_idx` (30_encoding.md R61, R64, R65). -/
def headerM7 (h : BitVec 16) : Bool := h.getLsbD 7

/-- Header bits 10:8 (30_encoding.md R61). -/
def headerOp1 (h : BitVec 16) : BitVec 3 := h.extractLsb' 8 3

/-- Header bit 11, `op1_indirect` (30_encoding.md R61, 90_conflicts.md C1). -/
def headerInd1 (h : BitVec 16) : Bool := h.getLsbD 11

/-- Header bits 14:12 (30_encoding.md R61). -/
def headerOp2 (h : BitVec 16) : BitVec 3 := h.extractLsb' 12 3

/-- Header bit 15, `op2_indirect` (30_encoding.md R61). -/
def headerInd2 (h : BitVec 16) : Bool := h.getLsbD 15

/-- The record of a generic header with a given immediate (30_encoding.md R64, R74). -/
def genericRecord (h : BitVec 16) (ra rb : RegId) (imm : BitVec 32) : GenericRec where
  rawOpcode := headerRaw h
  isImm := headerM7 h
  is64op := headerM6 h
  operand1 := ra
  op1Indirect := headerInd1 h
  operand2 := rb
  op2Indirect := headerInd2 h
  imm := imm

/-- The generic format: `rest` is what follows the header (30_encoding.md R64, R71, R74). -/
def decodeGeneric (h : BitVec 16) (ra rb : RegId) (rest : List Byte) : Except ErrorKind (GenericRec × Nat) :=
  if 2 + rest.length < genericLen (headerM7 h) then .error .truncated
  else
    let imm := if headerM7 h then BitVec.ofNat 32 (leNat (rest.take 2)) else 0
    .ok (genericRecord h ra rb imm, genericLen (headerM7 h))

/-- The MOV format with index width `L`: operand1's index first, then operand2's (30_encoding.md R65, R72, R73, R74). -/
def decodeMov (L : Nat) (h : BitVec 16) (ra rb : RegId) (rest : List Byte) : Except ErrorKind (MovRec × Nat) :=
  if 2 + rest.length < movLen L (headerM7 h) (headerM6 h) then .error .truncated
  else
    let after1 := if headerM7 h then rest.drop L else rest
    .ok ({ rawOpcode := headerRaw h
           operand1 := ra
           op1Indirect := headerInd1 h
           operand2 := rb
           op2Indirect := headerInd2 h
           isOp1Idx := headerM7 h
           isOp2Idx := headerM6 h
           op1Idx := if headerM7 h then BitVec.ofNat 64 (leNat (rest.take L)) else 0
           op2Idx := if headerM6 h then BitVec.ofNat 64 (leNat (after1.take L)) else 0 },
         movLen L (headerM7 h) (headerM6 h))

/-- The format that the opcode selects (30_encoding.md R62, R74). An unlisted opcode that is not refused has the generic format,
as NOP has (R69, R70). -/
def decodeBody (c : Config) (h : BitVec 16) (ra rb : RegId) (rest : List Byte) : Except ErrorKind (Instr × Nat) :=
  match c.resolveOpcode (headerRaw h) with
  | .generic op => (decodeGeneric h ra rb rest).map fun p => (op.instr p.1, p.2)
  | .mov op => (decodeMov op.idxLen h ra rb rest).map fun p => (op.instr p.1, p.2)
  | .unlisted op => (decodeGeneric h ra rb rest).map fun p => (op.instr p.1, p.2)

/-- The register fields, then the format (30_encoding.md R63, R74). -/
def decodeFields (c : Config) (h : BitVec 16) (rest : List Byte) : Except ErrorKind (Instr × Nat) :=
  match resolveRegister (headerOp1 h).toNat, resolveRegister (headerOp2 h).toNat with
  | .ok ra, .ok rb => decodeBody c h ra rb rest
  | .error e, _ => .error e
  | _, .error e => .error e

/-- The Decoder, on the bytes of the fetch window: an instruction with its length in bytes, a `DecodeError`, or the refusal of an
unlisted opcode, which comes before its length is computed (30_encoding.md R70, R74, 10_state.md R31). -/
def decode (c : Config) (b : List Byte) : Except Stop (Instr × Nat) :=
  match b with
  | b0 :: b1 :: rest =>
    let h := headerWord b0 b1
    if c.refusesRaw (headerRaw h) then .error (.refuse (.unlistedOpcode (headerRaw h)))
    else (decodeFields c h rest).mapError .error
  | _ => .error (.error .truncated)

/-! ## The encoder (30_encoding.md R76) -/

/-- One header bit at position `k`. -/
def flagAt (b : Bool) (k : Nat) : BitVec 16 := (BitVec.ofBool b).setWidth 16 <<< k

/-- The header word of R76's `encode`. -/
def encodeHeader (raw : BitVec 6) (m6 m7 : Bool) (ra : RegId) (ind1 : Bool) (rb : RegId) (ind2 : Bool) : BitVec 16 :=
  raw.setWidth 16 ||| flagAt m6 6 ||| flagAt m7 7 ||| (ra.field.setWidth 16 <<< 8) ||| flagAt ind1 11 |||
    (rb.field.setWidth 16 <<< 12) ||| flagAt ind2 15

/-- The bytes of a generic record: header, then `imm[15:0]` if there is an immediate (30_encoding.md R64, R76). -/
def encodeGeneric (r : GenericRec) : List Byte :=
  leBytes 2 (encodeHeader r.rawOpcode r.is64op r.isImm r.operand1 r.op1Indirect r.operand2 r.op2Indirect).toNat ++
    if r.isImm then leBytes 2 r.imm.toNat else []

/-- The bytes of a MOV record: header, then each present index, operand1's first (30_encoding.md R65, R73, R76). -/
def encodeMov (L : Nat) (r : MovRec) : List Byte :=
  leBytes 2 (encodeHeader r.rawOpcode r.isOp2Idx r.isOp1Idx r.operand1 r.op1Indirect r.operand2 r.op2Indirect).toNat ++
    ((if r.isOp1Idx then leBytes L r.op1Idx.toNat else []) ++ if r.isOp2Idx then leBytes L r.op2Idx.toNat else [])

/-- The bytes of an instruction (30_encoding.md R76). -/
def encode (i : Instr) : List Byte :=
  match i.record with
  | .generic _ r => encodeGeneric r
  | .mov op r => encodeMov op.idxLen r
  | .unlisted _ r => encodeGeneric r

/-- The instruction that `decode` reads from an instruction whose first `nbits` bits are `w` and whose other bits are 0: bit 0 is
the least significant bit of the first byte. The parameters are the defaults but for `P_UNLISTED_POLICY = nop`, so that the rows
of the unlisted opcodes are read too: under `refuse` the decoder refuses them, and reads every other word alike (log entry 10). -/
def decodeTableWord (nbits w : Nat) : Option Instr :=
  match decode { Config.default with unlistedPolicy := .nop } (leBytes maxLength (w % 2 ^ nbits)) with
  | .ok p => some p.1
  | .error _ => none

end Sys2Proof
end

