-- ==== Sys2Proof/WellFormed.lean ====
section
/-! DEFINITION. Which instructions are well formed under a configuration: exactly those the decoder can answer (10_state.md R27,
30_encoding.md R68, R70, R71, R72). -/

namespace Sys2Proof

/-- The immediate field of a record is 16 bits stored widened, and 0 when there is no immediate (R27, R71). -/
def GenericRec.wf (r : GenericRec) : Bool :=
  r.imm.toNat < 2 ^ 16 && (r.isImm || r.imm == 0)

/-- An index fits its `L` bytes, and is 0 when its flag is false (R27, R72). -/
def MovRec.wf (L : Nat) (r : MovRec) : Bool :=
  r.op1Idx.toNat < 2 ^ (8 * L) && r.op2Idx.toNat < 2 ^ (8 * L) &&
    (r.isOp1Idx || r.op1Idx == 0) && (r.isOp2Idx || r.op2Idx == 0)

/-- Well formed under a configuration: the raw opcode is one the map gives this tag and is not refused (R68, R70), and the fields
are ones the decoder makes. -/
def Instr.wf (c : Config) (i : Instr) : Bool :=
  c.resolveOpcode i.record.rawOpcode == i.record.opcode && !c.refusesRaw i.record.rawOpcode &&
    match i.record with
    | .generic _ r => r.wf
    | .mov op r => r.wf op.idxLen
    | .unlisted _ r => r.wf

end Sys2Proof
end

