-- ==== Sys2Proof/Machine/State.lean ====
section
/-! DEFINITION. The machine's state, everything 10_state.md R32 lists and the parameters of 00_scope.md R8, as plain data; the
fault and refusal types; the state after reset. -/

namespace Sys2Proof.Machine

/-- Why `step` gives no next state. All three are the spec's own stop (10_state.md R29: a state with any of the three fields
set takes no further step), so they are safe; the four error kinds of the hardware are no faults here but next states. -/
inductive Fault where
  /-- Raised by `step` in a state whose `halted` is set; safe (R29, R100). -/
  | alreadyHalted
  /-- Raised by `step` in a state whose `error` is set; safe (R29, R100, R205). -/
  | alreadyFailed (e : ErrorKind)
  /-- Raised by `step` in a state whose `refused` is set; safe (R29, R100, R207). -/
  | alreadyRefused (r : RefuseReason)
deriving DecidableEq, Repr

/-- The model's own refusals. The refusals of R207 are no refusals here: the spec says what the step does to the state. -/
inductive Refusal where
  /-- An instruction without a meaning, raised by `exec`; safe. No arm of `exec` raises it: every instruction has its meaning. -/
  | notModelled (mnemonic : String)
deriving DecidableEq, Repr

/-- The register file: eight 64-bit registers, none hard-wired (10_state.md R20). -/
structure RegFile where
  r0 : Word
  r1 : Word
  r2 : Word
  r3 : Word
  r4 : Word
  r5 : Word
  r6 : Word
  r7 : Word
deriving DecidableEq, Repr

/-- The memory region (20_memory.md R40) as (address, byte) pairs: addresses strictly rising, and no byte equal to what an
unlisted address reads as (`Memory.unlisted` in Ops.lean). -/
abbrev Memory := List Host.Cell

/-- The whole state (10_state.md R32). `cfg` is the parameters of R8, which no step changes. -/
structure State where
  cfg     : Config
  regs    : RegFile
  mem     : Memory
  pc      : Word
  halted  : Bool
  error   : Option ErrorKind
  refused : Option RefuseReason
deriving DecidableEq, Repr

/-- The state before the first step (10_state.md R32, 70_reset_and_hazards.md R240), under the default parameters of R8.
DESIGN CHOICE (log entries 2, 3, 4): the caller supplies the registers, the memory image and `ENTRY_PC`, and the spec gives no
values for them; here the registers are 0, no byte is listed and `ENTRY_PC` is 0x200. -/
def State.reset : State where
  cfg := Config.default
  regs := { r0 := 0, r1 := 0, r2 := 0, r3 := 0, r4 := 0, r5 := 0, r6 := 0, r7 := 0 }
  mem := []
  pc := 0x200
  halted := false
  error := none
  refused := none

end Sys2Proof.Machine
end

