-- ==== Sys2Proof/Machine/Ops.lean ====
section
/-! DEFINITION. The named operations over registers, memory and run control; taking an error and taking a refusal as one shared
operation (60_exceptions.md R204, R207); the fetch window; the end of a step; the launch. There is no return from an error
(60_exceptions.md R205), so no operation for one. -/

namespace Sys2Proof.Machine

/-! ## Registers -/

/-- A register of the file (10_state.md R22). -/
def RegFile.get (f : RegFile) : RegId → Word
  | .r0 => f.r0
  | .r1 => f.r1
  | .r2 => f.r2
  | .r3 => f.r3
  | .r4 => f.r4
  | .r5 => f.r5
  | .r6 => f.r6
  | .r7 => f.r7

/-- The file with one register replaced (10_state.md R22). -/
def RegFile.set (f : RegFile) (r : RegId) (v : Word) : RegFile :=
  match r with
  | .r0 => { f with r0 := v }
  | .r1 => { f with r1 := v }
  | .r2 => { f with r2 := v }
  | .r3 => { f with r3 := v }
  | .r4 => { f with r4 := v }
  | .r5 => { f with r5 := v }
  | .r6 => { f with r6 := v }
  | .r7 => { f with r7 := v }

/-- `x[r]` (00_scope.md R10): all 64 bits, never fails (10_state.md R22). -/
def State.reg (s : State) (r : RegId) : Word := s.regs.get r

/-- `x[r] <- v` (00_scope.md R10): replaces all 64 bits, never fails (10_state.md R22). -/
def State.setReg (s : State) (r : RegId) (v : Word) : State := { s with regs := s.regs.set r v }

/-! ## Memory -/

/-- What an address that the list does not hold reads as. DESIGN CHOICE (log entry 4). -/
def Memory.unlisted : Byte := 0

/-- Every address of the list is above `a`, the addresses rise strictly, and no byte is `Memory.unlisted`. -/
def Memory.wfAbove : Nat → Memory → Bool
  | _, [] => true
  | a, (k, v) :: m => decide (a < k) && v != Memory.unlisted && Memory.wfAbove k m

/-- The canonical form: addresses strictly rising, no byte equal to `Memory.unlisted`. -/
def Memory.wf : Memory → Bool
  | [] => true
  | (k, v) :: m => v != Memory.unlisted && Memory.wfAbove k m

/-- The byte at an address. -/
def Memory.read : Memory → Nat → Byte
  | [], _ => Memory.unlisted
  | (k, v) :: m, a => if a = k then v else Memory.read m a

/-- The memory with the byte at an address replaced, in canonical form. -/
def Memory.write : Memory → Nat → Byte → Memory
  | [], a, b => if b = Memory.unlisted then [] else [(a, b)]
  | (k, v) :: m, a, b =>
    if a < k then if b = Memory.unlisted then (k, v) :: m else (a, b) :: (k, v) :: m
    else if a = k then if b = Memory.unlisted then m else (k, b) :: m
    else (k, v) :: Memory.write m a b

/-- The `n` bytes from an address on, in memory order. -/
def Memory.bytes (m : Memory) (a : Nat) : Nat → List Byte
  | 0 => []
  | n + 1 => m.read a :: Memory.bytes m (a + 1) n

/-- The memory with bytes written from an address on. -/
def Memory.writeBytes (m : Memory) (a : Nat) : List Byte → Memory
  | [] => m
  | b :: bs => Memory.writeBytes (Memory.write m a b) (a + 1) bs

/-! ## Accesses -/

/-- `OutOfBounds(addr, n)`, on unbounded integers (20_memory.md R44). -/
def outOfBounds (c : Config) (addr : Word) (n : Nat) : Bool := decide (addr.toNat + n > c.memSize)

/-- `MemRead(addr, n)`, the value zero-extended to 64 bits (20_memory.md R42). -/
def memRead (s : State) (addr : Word) (n : Nat) : Except Stop Word :=
  if outOfBounds s.cfg addr n then .error (.error .outOfBounds)
  else .ok (BitVec.ofNat 64 (leNat (s.mem.bytes addr.toNat n)))

/-- `MemWrite(addr, n, v)`: the low `n` bytes of `v`, little-endian; nothing is written when out of bounds (20_memory.md R43). -/
def memWrite (s : State) (addr : Word) (n : Nat) (v : Word) : Except Stop State :=
  if outOfBounds s.cfg addr n then .error (.error .outOfBounds)
  else .ok { s with mem := Memory.writeBytes s.mem addr.toNat (leBytes n v.toNat) }

/-! ## Ending an instruction -/

/-- TAKING AN ERROR: `error` is set to its kind and nothing else changes (60_exceptions.md R204, 40_execution_control.md R100). -/
def State.takeError (s : State) (e : ErrorKind) : State := { s with error := some e }

/-- Taking a refusal: `refused` is set to its reason and nothing else changes (60_exceptions.md R207). -/
def State.takeRefusal (s : State) (r : RefuseReason) : State := { s with refused := some r }

/-- `halt`: `halted` is set and nothing else changes (40_execution_control.md R100, R106). -/
def State.halt (s : State) : State := { s with halted := true }

/-- The outcome of an instruction that started in `s`: an error or a refusal keeps none of its writes
(40_execution_control.md R103). -/
def conclude (s : State) : Except Stop State → Host.Outcome State Fault Refusal
  | .ok t => .next t
  | .error (.error e) => .next (s.takeError e)
  | .error (.refuse r) => .next (s.takeRefusal r)

/-- Whether one of the three run-control fields is set (10_state.md R29). -/
def State.stopped (s : State) : Bool := s.halted || s.error.isSome || s.refused.isSome

/-- Why a state has no step (10_state.md R29, 40_execution_control.md R100). -/
def State.noStep (s : State) : Option Fault :=
  if s.halted then some .alreadyHalted
  else match s.error with
    | some e => some (.alreadyFailed e)
    | none => s.refused.map Fault.alreadyRefused

/-- `pc <- trunc_64(pc + len)` (40_execution_control.md R100). -/
def State.advance (s : State) (len : Nat) : State := { s with pc := s.pc + BitVec.ofNat 64 len }

/-- The end of a step: `pc` moves past the instruction unless it halted, failed or was refused (40_execution_control.md R100). -/
def retire (len : Nat) : Host.Outcome State Fault Refusal → Host.Outcome State Fault Refusal
  | .next t => .next (if t.stopped then t else t.advance len)
  | .fault f => .fault f
  | .refused r => .refused r

/-! ## Fetch and launch -/

/-- `avail`: how many bytes the region holds from `pc` on (20_memory.md R55). -/
def State.avail (s : State) : Nat := if s.pc.toNat < s.cfg.memSize then s.cfg.memSize - s.pc.toNat else 0

/-- The fetch window (20_memory.md R55), cut at the longest instruction: the decoder reads no byte beyond (30_encoding.md R74, R75). -/
def State.window (s : State) : List Byte := Memory.bytes s.mem s.pc.toNat (min maxLength s.avail)

/-- The instruction at `pc` with its length, or the decoder's error or refusal (40_execution_control.md R100). -/
def State.fetch (s : State) : Except Stop (Instr × Nat) := decode s.cfg s.window

/-- The memory with the cells of an image written in turn; a cell outside the region is not loaded (20_memory.md R40, R56). -/
def Memory.load (c : Config) (m : Memory) : List Host.Cell → Memory
  | [] => m
  | (a, b) :: image => Memory.load c (if a < c.memSize then Memory.write m a b else m) image

/-- A launch: parameters, registers, memory image and `ENTRY_PC` supplied from outside, run control clear
(70_reset_and_hazards.md R240, R242, R243). -/
def State.launch (c : Config) (regs : RegFile) (image : List Host.Cell) (entry : Word) : State where
  cfg := c
  regs := regs
  mem := Memory.load c [] image
  pc := entry
  halted := false
  error := none
  refused := none

end Sys2Proof.Machine
end

