-- ==== Sys2Proof/Machine/Flags.lean ====
section
/-! DEFINITION. The hardware has no flags (10_state.md R26), so no instruction computes one. What stands here in their place is
the conditions that the ALU checks on its operands (41_alu.md R128-R131, R135, R136), for either width W. -/

namespace Sys2Proof.Machine

/-- `b = 0` on the W-bit divisor: `ExecutionError::DivisionByZero` (41_alu.md R128-R131, R137). -/
def divisorIsZero {W : Nat} (b : BitVec W) : Bool := b == 0

/-- `signed_W(a) = -2^(W-1)` and `signed_W(b) = -1`: `refuse(SignedDivisionOverflow)` (41_alu.md R128, R130). -/
def divisionOverflows {W : Nat} (a b : BitVec W) : Bool :=
  decide (a.toInt = -(2 ^ (W - 1))) && decide (b.toInt = -1)

/-- `c >= W`: `refuse(ShiftCountTooLarge)` (41_alu.md R135, R136). -/
def shiftTooLarge {W : Nat} (b : BitVec W) : Bool := decide (b.toNat ≥ W)

end Sys2Proof.Machine
end

