-- ==== Sys2Proof/Machine/Operands.lean ====
section
/-! DEFINITION. Every operand form: SlotValue, Op1Value and Op1Write of the generic opcodes (40_execution_control.md R102, R104),
source and destination of the MOV family (43_mov.md R160, R161), and the shared execution sequences. -/

namespace Sys2Proof.Machine

/-! ## Generic opcodes -/

/-- The operation width W in bits (41_alu.md R120, 42_push.md R150). -/
def opWidth (r : GenericRec) : Nat := if r.is64op then 64 else 32

/-- The 16-bit immediate, zero-extended (30_encoding.md R71, 40_execution_control.md R102). -/
def immediate (r : GenericRec) : Word := zext 16 (r.imm.setWidth 64)

/-- The address of an indirect slot: the register, plus the immediate when there is one (40_execution_control.md R102). -/
def slotAddress (s : State) (r : GenericRec) (op : RegId) : Word :=
  if r.isImm then s.reg op + immediate r else s.reg op

/-- `SlotValue(r, ind, rec, W)`: the value of the immediate-bearing slot (40_execution_control.md R102). -/
def slotValue (s : State) (r : GenericRec) (op : RegId) (ind : Bool) (W : Nat) : Except Stop (BitVec W) :=
  if ind then (memRead s (slotAddress s r op) (W / 8)).map (·.setWidth W)
  else .ok ((if r.isImm then immediate r else s.reg op).setWidth W)

/-- `Op1Value(rec, W)` (40_execution_control.md R104). -/
def op1Value (s : State) (r : GenericRec) (W : Nat) : Except Stop (BitVec W) :=
  if r.op1Indirect then (memRead s (s.reg r.operand1) (W / 8)).map (·.setWidth W)
  else .ok ((s.reg r.operand1).setWidth W)

/-- What a W-bit result makes of a register that held `old` (40_execution_control.md R104). -/
def placeResult (p : W32Upper) (old : Word) {W : Nat} (v : BitVec W) : Word :=
  if W = 64 then v.setWidth 64
  else match p with
    | .zero => v.setWidth 64
    | .sign => v.signExtend 64
    | .preserve => (old >>> 32 <<< 32) ||| v.setWidth 64

/-- `Op1Write(rec, W, v)` (40_execution_control.md R104). -/
def op1Write (s : State) (r : GenericRec) {W : Nat} (v : BitVec W) : Except Stop State :=
  if r.op1Indirect then memWrite s (s.reg r.operand1) (W / 8) (v.setWidth 64)
  else .ok (s.setReg r.operand1 (placeResult s.cfg.w32Upper (s.reg r.operand1) v))

/-- `ExecUnary(rec, f)` (41_alu.md R121). -/
def unary (f : (W : Nat) → BitVec W → BitVec W) (r : GenericRec) (s : State) : Except Stop State := do
  let b ← slotValue s r r.operand2 r.op2Indirect (opWidth r)
  op1Write s r (f (opWidth r) b)

/-- `ExecBinary(rec, f)` (41_alu.md R121): the slot, then operand1, then the operation, then the write. -/
def binary (f : (W : Nat) → BitVec W → BitVec W → Except Stop (BitVec W)) (r : GenericRec) (s : State) :
    Except Stop State := do
  let b ← slotValue s r r.operand2 r.op2Indirect (opWidth r)
  let a ← op1Value s r (opWidth r)
  let v ← f (opWidth r) a b
  op1Write s r v

/-! ## The MOV family -/

/-- `x[r] + d`, with `d` the index sign-extended from `8 L` bits when its flag is set (43_mov.md R160). -/
def movAddress (s : State) (op : RegId) (L : Nat) (hasIdx : Bool) (idx : Word) : Word :=
  s.reg op + if hasIdx then sext (8 * L) idx else 0

/-- The address of an indirect MOV source. -/
def movSourceAddress (s : State) (L : Nat) (r : MovRec) : Word := movAddress s r.operand2 L r.isOp2Idx r.op2Idx

/-- The address of an indirect MOV destination. -/
def movDestAddress (s : State) (L : Nat) (r : MovRec) : Word := movAddress s r.operand1 L r.isOp1Idx r.op1Idx

/-- Whether an index flag stands on a direct operand: `refuse(IndexOnDirectOperand)` (43_mov.md R160). -/
def indexOnDirect (r : MovRec) : Bool := (!r.op2Indirect && r.isOp2Idx) || (!r.op1Indirect && r.isOp1Idx)

/-- The `n`-byte source value, zero-extended (43_mov.md R160). -/
def movSource (s : State) (n L : Nat) (r : MovRec) : Except Stop Word :=
  if r.op2Indirect then memRead s (movSourceAddress s L r) n
  else .ok (zext (8 * n) (s.reg r.operand2))

/-- `RegExt(n, v)` (43_mov.md R161). -/
def regExt (p : MovRegExt) (n : Nat) (v : Word) : Word :=
  match p with
  | .zero => zext (8 * n) v
  | .sign => sext (8 * n) v

/-- The write of a MOV (43_mov.md R160). -/
def movWrite (s : State) (n L : Nat) (r : MovRec) (v : Word) : Except Stop State :=
  if r.op1Indirect then memWrite s (movDestAddress s L r) n v
  else .ok (s.setReg r.operand1 (regExt s.cfg.movRegExt n v))

/-- `ExecMov(rec)` with `op_len` = `n` and `idx_len` = `L` (43_mov.md R160). -/
def mov (n L : Nat) (r : MovRec) (s : State) : Except Stop State :=
  if indexOnDirect r then .error (.refuse .indexOnDirectOperand)
  else do
    let v ← movSource s n L r
    movWrite s n L r v

end Sys2Proof.Machine
end

