-- ==== Sys2Proof/Machine/Alu.lean ====
section
/-! DEFINITION. NOT, NEG and the thirteen binary opcodes (41_alu.md). Each `alu…` is the rule's `f`; each `exec…` puts it into the
shared execution sequence of R121. -/

namespace Sys2Proof.Machine

/-- `f(b, W) = trunc_W(~b)` (R122). -/
def aluNot (W : Nat) (b : BitVec W) : BitVec W := ~~~b

/-- `f(b, W) = trunc_W(2^W - b)` (R123). -/
def aluNeg (W : Nat) (b : BitVec W) : BitVec W := BitVec.ofNat W (2 ^ W - b.toNat)

/-- `f(a, b, W) = trunc_W(a + b)` (R124). -/
def aluAdd (W : Nat) (a b : BitVec W) : Except Stop (BitVec W) := .ok (a + b)

/-- `f(a, b, W) = trunc_W(a - b)` (R125). -/
def aluSub (W : Nat) (a b : BitVec W) : Except Stop (BitVec W) := .ok (a - b)

/-- `f(a, b, W) = trunc_W(signed_W(a) * signed_W(b))` (R126). -/
def aluMul (W : Nat) (a b : BitVec W) : Except Stop (BitVec W) := .ok (BitVec.ofInt W (a.toInt * b.toInt))

/-- `f(a, b, W) = trunc_W(a * b)` (R127). -/
def aluMulu (W : Nat) (a b : BitVec W) : Except Stop (BitVec W) := .ok (BitVec.ofNat W (a.toNat * b.toNat))

/-- Signed division, quotient toward zero (R128). -/
def aluDiv (W : Nat) (a b : BitVec W) : Except Stop (BitVec W) :=
  if divisorIsZero b then .error (.error .divisionByZero)
  else if divisionOverflows a b then .error (.refuse .signedDivisionOverflow)
  else .ok (BitVec.ofInt W (a.toInt.tdiv b.toInt))

/-- Unsigned division, quotient rounded down (R129). -/
def aluDivu (W : Nat) (a b : BitVec W) : Except Stop (BitVec W) :=
  if divisorIsZero b then .error (.error .divisionByZero) else .ok (BitVec.ofNat W (a.toNat / b.toNat))

/-- Signed remainder, `rem_t(a, b) = a - b * div_t(a, b)` (R130, 00_scope.md R10). -/
def aluMod (W : Nat) (a b : BitVec W) : Except Stop (BitVec W) :=
  if divisorIsZero b then .error (.error .divisionByZero)
  else if divisionOverflows a b then .error (.refuse .signedDivisionOverflow)
  else .ok (BitVec.ofInt W (a.toInt - b.toInt * a.toInt.tdiv b.toInt))

/-- Unsigned remainder, `a - b * floor(a / b)` (R131). -/
def aluModu (W : Nat) (a b : BitVec W) : Except Stop (BitVec W) :=
  if divisorIsZero b then .error (.error .divisionByZero)
  else .ok (BitVec.ofNat W (a.toNat - b.toNat * (a.toNat / b.toNat)))

/-- `f(a, b, W) = a & b` (R132). -/
def aluAnd (W : Nat) (a b : BitVec W) : Except Stop (BitVec W) := .ok (a &&& b)

/-- `f(a, b, W) = a | b` (R133). -/
def aluOr (W : Nat) (a b : BitVec W) : Except Stop (BitVec W) := .ok (a ||| b)

/-- `f(a, b, W) = a ^ b` (R134). -/
def aluXor (W : Nat) (a b : BitVec W) : Except Stop (BitVec W) := .ok (a ^^^ b)

/-- Shift left; a count of W or more is refused (R135). -/
def aluShl (W : Nat) (a b : BitVec W) : Except Stop (BitVec W) :=
  if shiftTooLarge b then .error (.refuse .shiftCountTooLarge) else .ok (a <<< b.toNat)

/-- Shift right, arithmetic or logical by `P_SHR_KIND`; a count of W or more is refused (R136). -/
def aluShr (k : ShrKind) (W : Nat) (a b : BitVec W) : Except Stop (BitVec W) :=
  if shiftTooLarge b then .error (.refuse .shiftCountTooLarge)
  else match k with
    | .arith => .ok (a.sshiftRight b.toNat)
    | .logical => .ok (a >>> b.toNat)

/-- NOT (R122). -/
def execNot (r : GenericRec) (s : State) : Host.Outcome State Fault Refusal := conclude s (unary aluNot r s)

/-- NEG (R123). -/
def execNeg (r : GenericRec) (s : State) : Host.Outcome State Fault Refusal := conclude s (unary aluNeg r s)

/-- ADD (R124). -/
def execAdd (r : GenericRec) (s : State) : Host.Outcome State Fault Refusal := conclude s (binary aluAdd r s)

/-- SUB (R125). -/
def execSub (r : GenericRec) (s : State) : Host.Outcome State Fault Refusal := conclude s (binary aluSub r s)

/-- MUL (R126). -/
def execMul (r : GenericRec) (s : State) : Host.Outcome State Fault Refusal := conclude s (binary aluMul r s)

/-- MULU (R127). -/
def execMulu (r : GenericRec) (s : State) : Host.Outcome State Fault Refusal := conclude s (binary aluMulu r s)

/-- DIV (R128). -/
def execDiv (r : GenericRec) (s : State) : Host.Outcome State Fault Refusal := conclude s (binary aluDiv r s)

/-- DIVU (R129). -/
def execDivu (r : GenericRec) (s : State) : Host.Outcome State Fault Refusal := conclude s (binary aluDivu r s)

/-- MOD (R130). -/
def execMod (r : GenericRec) (s : State) : Host.Outcome State Fault Refusal := conclude s (binary aluMod r s)

/-- MODU (R131). -/
def execModu (r : GenericRec) (s : State) : Host.Outcome State Fault Refusal := conclude s (binary aluModu r s)

/-- AND (R132). -/
def execAnd (r : GenericRec) (s : State) : Host.Outcome State Fault Refusal := conclude s (binary aluAnd r s)

/-- OR (R133). -/
def execOr (r : GenericRec) (s : State) : Host.Outcome State Fault Refusal := conclude s (binary aluOr r s)

/-- XOR (R134). -/
def execXor (r : GenericRec) (s : State) : Host.Outcome State Fault Refusal := conclude s (binary aluXor r s)

/-- SHL (R135). -/
def execShl (r : GenericRec) (s : State) : Host.Outcome State Fault Refusal := conclude s (binary aluShl r s)

/-- SHR (R136). -/
def execShr (r : GenericRec) (s : State) : Host.Outcome State Fault Refusal :=
  conclude s (binary (aluShr s.cfg.shrKind) r s)

end Sys2Proof.Machine
end

