-- ==== Sys2Proof/Machine/Control.lean ====
section
/-! DEFINITION. NOP and RET (40_execution_control.md section 3). -/

namespace Sys2Proof.Machine

/-- NOP: no state change; every field is ignored (R105, 30_encoding.md R69, R78). -/
def execNop (_r : GenericRec) (s : State) : Host.Outcome State Fault Refusal := .next s

/-- RET: halt; every field is ignored, nothing is popped, `pc` stays (R106). -/
def execRet (_r : GenericRec) (s : State) : Host.Outcome State Fault Refusal := .next s.halt

end Sys2Proof.Machine
end

