-- ==== Sys2Proof/Machine/Mov.lean ====
section
/-! DEFINITION. The nine MOV instructions (43_mov.md): each is `ExecMov` of R160 with the widths of 30_encoding.md R66. -/

namespace Sys2Proof.Machine

/-- MOVbw: moves 1 byte, indexes of 2 bytes (R162). -/
def execMovbw (r : MovRec) (s : State) : Host.Outcome State Fault Refusal := conclude s (mov 1 2 r s)

/-- MOVbd: moves 1 byte, indexes of 4 bytes (R163). -/
def execMovbd (r : MovRec) (s : State) : Host.Outcome State Fault Refusal := conclude s (mov 1 4 r s)

/-- MOVww: moves 2 bytes, indexes of 2 bytes (R164). -/
def execMovww (r : MovRec) (s : State) : Host.Outcome State Fault Refusal := conclude s (mov 2 2 r s)

/-- MOVwd: moves 2 bytes, indexes of 4 bytes (R165). -/
def execMovwd (r : MovRec) (s : State) : Host.Outcome State Fault Refusal := conclude s (mov 2 4 r s)

/-- MOVdw: moves 4 bytes, indexes of 2 bytes (R166). -/
def execMovdw (r : MovRec) (s : State) : Host.Outcome State Fault Refusal := conclude s (mov 4 2 r s)

/-- MOVdd: moves 4 bytes, indexes of 4 bytes (R167). -/
def execMovdd (r : MovRec) (s : State) : Host.Outcome State Fault Refusal := conclude s (mov 4 4 r s)

/-- MOVqw: moves 8 bytes, indexes of 2 bytes (R168). -/
def execMovqw (r : MovRec) (s : State) : Host.Outcome State Fault Refusal := conclude s (mov 8 2 r s)

/-- MOVqd: moves 8 bytes, indexes of 4 bytes (R169). -/
def execMovqd (r : MovRec) (s : State) : Host.Outcome State Fault Refusal := conclude s (mov 8 4 r s)

/-- MOVqq: moves 8 bytes, indexes of 8 bytes (R170). -/
def execMovqq (r : MovRec) (s : State) : Host.Outcome State Fault Refusal := conclude s (mov 8 8 r s)

end Sys2Proof.Machine
end

