-- ==== Sys2Proof/Machine/Push.lean ====
section
/-! DEFINITION. PUSH (42_push.md). -/

namespace Sys2Proof.Machine

/-- The new stack pointer, `trunc_64(x[0] - n)` with n = W/8 (R150). -/
def pushAddress (r : GenericRec) (s : State) : Word := s.reg .r0 - BitVec.ofNat 64 (opWidth r / 8)

/-- `ExecPush(rec)`: the value is read before R0 changes, and R0 and memory change together (R150); operand1 = R0 is refused for
every form (R152). -/
def push (r : GenericRec) (s : State) : Except Stop State :=
  if r.operand1 = .r0 then .error (.refuse .pushOfStackPointer)
  else do
    let v ← slotValue s r r.operand1 r.op1Indirect (opWidth r)
    let t ← memWrite s (pushAddress r s) (opWidth r / 8) (v.setWidth 64)
    return t.setReg .r0 (pushAddress r s)

/-- PUSH (R150, R152). -/
def execPush (r : GenericRec) (s : State) : Host.Outcome State Fault Refusal := conclude s (push r s)

end Sys2Proof.Machine
end

