-- ==== Sys2Proof/Machine/Unlisted.lean ====
section
/-! DEFINITION. The thirty unlisted raw opcode values (30_encoding.md R68, R70; 40_execution_control.md R108): no meaning from
outside the source; `P_UNLISTED_POLICY` says whether such a value is refused or is a NOP. Under `refuse` the decoder has already
refused it (R74), so these meanings are reached under `nop` only; on an instruction given to `exec` directly they refuse alike
(log entry 10). -/

namespace Sys2Proof.Machine

/-- `refuse(UnlistedOpcode(raw))` under `refuse`, no state change (R69, R105) under `nop` (R70). -/
def unlisted (r : GenericRec) (s : State) : Except Stop State :=
  match s.cfg.unlistedPolicy with
  | .refuse => .error (.refuse (.unlistedOpcode r.rawOpcode))
  | .nop => .ok s

/-- BREAK, unlisted (R70). -/
def execUnlistedBreak (r : GenericRec) (s : State) : Host.Outcome State Fault Refusal := conclude s (unlisted r s)

/-- JMP, unlisted (R70). -/
def execUnlistedJmp (r : GenericRec) (s : State) : Host.Outcome State Fault Refusal := conclude s (unlisted r s)

/-- JMP8, unlisted (R70). -/
def execUnlistedJmp8 (r : GenericRec) (s : State) : Host.Outcome State Fault Refusal := conclude s (unlisted r s)

/-- CALL, unlisted (R70). -/
def execUnlistedCall (r : GenericRec) (s : State) : Host.Outcome State Fault Refusal := conclude s (unlisted r s)

/-- CMPeq, unlisted (R70). -/
def execUnlistedCmpeq (r : GenericRec) (s : State) : Host.Outcome State Fault Refusal := conclude s (unlisted r s)

/-- CMPlte, unlisted (R70). -/
def execUnlistedCmplte (r : GenericRec) (s : State) : Host.Outcome State Fault Refusal := conclude s (unlisted r s)

/-- CMPgte, unlisted (R70). -/
def execUnlistedCmpgte (r : GenericRec) (s : State) : Host.Outcome State Fault Refusal := conclude s (unlisted r s)

/-- CMPulte, unlisted (R70). -/
def execUnlistedCmpulte (r : GenericRec) (s : State) : Host.Outcome State Fault Refusal := conclude s (unlisted r s)

/-- CMPugte, unlisted (R70). -/
def execUnlistedCmpugte (r : GenericRec) (s : State) : Host.Outcome State Fault Refusal := conclude s (unlisted r s)

/-- ASHR, unlisted (R70). -/
def execUnlistedAshr (r : GenericRec) (s : State) : Host.Outcome State Fault Refusal := conclude s (unlisted r s)

/-- EXTNDB, unlisted (R70). -/
def execUnlistedExtndb (r : GenericRec) (s : State) : Host.Outcome State Fault Refusal := conclude s (unlisted r s)

/-- EXTNDW, unlisted (R70). -/
def execUnlistedExtndw (r : GenericRec) (s : State) : Host.Outcome State Fault Refusal := conclude s (unlisted r s)

/-- EXTNDD, unlisted (R70). -/
def execUnlistedExtndd (r : GenericRec) (s : State) : Host.Outcome State Fault Refusal := conclude s (unlisted r s)

/-- MOVsnw, unlisted (R70). -/
def execUnlistedMovsnw (r : GenericRec) (s : State) : Host.Outcome State Fault Refusal := conclude s (unlisted r s)

/-- MOVsnd, unlisted (R70). -/
def execUnlistedMovsnd (r : GenericRec) (s : State) : Host.Outcome State Fault Refusal := conclude s (unlisted r s)

/-- LOADSP, unlisted (R70). -/
def execUnlistedLoadsp (r : GenericRec) (s : State) : Host.Outcome State Fault Refusal := conclude s (unlisted r s)

/-- STORESP, unlisted (R70). -/
def execUnlistedStoresp (r : GenericRec) (s : State) : Host.Outcome State Fault Refusal := conclude s (unlisted r s)

/-- POP, unlisted (R70). -/
def execUnlistedPop (r : GenericRec) (s : State) : Host.Outcome State Fault Refusal := conclude s (unlisted r s)

/-- CMPIeq, unlisted (R70). -/
def execUnlistedCmpieq (r : GenericRec) (s : State) : Host.Outcome State Fault Refusal := conclude s (unlisted r s)

/-- CMPIlte, unlisted (R70). -/
def execUnlistedCmpilte (r : GenericRec) (s : State) : Host.Outcome State Fault Refusal := conclude s (unlisted r s)

/-- CMPIgte, unlisted (R70). -/
def execUnlistedCmpigte (r : GenericRec) (s : State) : Host.Outcome State Fault Refusal := conclude s (unlisted r s)

/-- CMPIulte, unlisted (R70). -/
def execUnlistedCmpiulte (r : GenericRec) (s : State) : Host.Outcome State Fault Refusal := conclude s (unlisted r s)

/-- CMPIugte, unlisted (R70). -/
def execUnlistedCmpiugte (r : GenericRec) (s : State) : Host.Outcome State Fault Refusal := conclude s (unlisted r s)

/-- MOVnw, unlisted (R70). -/
def execUnlistedMovnw (r : GenericRec) (s : State) : Host.Outcome State Fault Refusal := conclude s (unlisted r s)

/-- MOVnd, unlisted (R70). -/
def execUnlistedMovnd (r : GenericRec) (s : State) : Host.Outcome State Fault Refusal := conclude s (unlisted r s)

/-- PUSHn, unlisted (R70). -/
def execUnlistedPushn (r : GenericRec) (s : State) : Host.Outcome State Fault Refusal := conclude s (unlisted r s)

/-- POPn, unlisted (R70). -/
def execUnlistedPopn (r : GenericRec) (s : State) : Host.Outcome State Fault Refusal := conclude s (unlisted r s)

/-- MOVI, unlisted (R70). -/
def execUnlistedMovi (r : GenericRec) (s : State) : Host.Outcome State Fault Refusal := conclude s (unlisted r s)

/-- MOVIn, unlisted (R70). -/
def execUnlistedMovin (r : GenericRec) (s : State) : Host.Outcome State Fault Refusal := conclude s (unlisted r s)

/-- MOVREL, unlisted (R70). -/
def execUnlistedMovrel (r : GenericRec) (s : State) : Host.Outcome State Fault Refusal := conclude s (unlisted r s)

end Sys2Proof.Machine
end

