-- ==== Sys2Proof/Machine/Dispatch.lean ====
section
/-! DEFINITION. `execute` (40_execution_control.md R101): one arm per constructor of Instr. -/

namespace Sys2Proof.Machine

/-- The effect of an instruction on a state, without the advance of `pc` (R101; the step advances it, R100). -/
def exec (i : Instr) (s : State) : Host.Outcome State Fault Refusal :=
  match i with
  | .nop r => Sys2Proof.Machine.execNop r s
  | .ret r => Sys2Proof.Machine.execRet r s
  | .not r => Sys2Proof.Machine.execNot r s
  | .neg r => Sys2Proof.Machine.execNeg r s
  | .add r => Sys2Proof.Machine.execAdd r s
  | .sub r => Sys2Proof.Machine.execSub r s
  | .mul r => Sys2Proof.Machine.execMul r s
  | .mulu r => Sys2Proof.Machine.execMulu r s
  | .div r => Sys2Proof.Machine.execDiv r s
  | .divu r => Sys2Proof.Machine.execDivu r s
  | .mod r => Sys2Proof.Machine.execMod r s
  | .modu r => Sys2Proof.Machine.execModu r s
  | .and r => Sys2Proof.Machine.execAnd r s
  | .or r => Sys2Proof.Machine.execOr r s
  | .xor r => Sys2Proof.Machine.execXor r s
  | .shl r => Sys2Proof.Machine.execShl r s
  | .shr r => Sys2Proof.Machine.execShr r s
  | .push r => Sys2Proof.Machine.execPush r s
  | .movbw r => Sys2Proof.Machine.execMovbw r s
  | .movbd r => Sys2Proof.Machine.execMovbd r s
  | .movww r => Sys2Proof.Machine.execMovww r s
  | .movwd r => Sys2Proof.Machine.execMovwd r s
  | .movdw r => Sys2Proof.Machine.execMovdw r s
  | .movdd r => Sys2Proof.Machine.execMovdd r s
  | .movqw r => Sys2Proof.Machine.execMovqw r s
  | .movqd r => Sys2Proof.Machine.execMovqd r s
  | .movqq r => Sys2Proof.Machine.execMovqq r s
  | .unlistedBreak r => Sys2Proof.Machine.execUnlistedBreak r s
  | .unlistedJmp r => Sys2Proof.Machine.execUnlistedJmp r s
  | .unlistedJmp8 r => Sys2Proof.Machine.execUnlistedJmp8 r s
  | .unlistedCall r => Sys2Proof.Machine.execUnlistedCall r s
  | .unlistedCmpeq r => Sys2Proof.Machine.execUnlistedCmpeq r s
  | .unlistedCmplte r => Sys2Proof.Machine.execUnlistedCmplte r s
  | .unlistedCmpgte r => Sys2Proof.Machine.execUnlistedCmpgte r s
  | .unlistedCmpulte r => Sys2Proof.Machine.execUnlistedCmpulte r s
  | .unlistedCmpugte r => Sys2Proof.Machine.execUnlistedCmpugte r s
  | .unlistedAshr r => Sys2Proof.Machine.execUnlistedAshr r s
  | .unlistedExtndb r => Sys2Proof.Machine.execUnlistedExtndb r s
  | .unlistedExtndw r => Sys2Proof.Machine.execUnlistedExtndw r s
  | .unlistedExtndd r => Sys2Proof.Machine.execUnlistedExtndd r s
  | .unlistedMovsnw r => Sys2Proof.Machine.execUnlistedMovsnw r s
  | .unlistedMovsnd r => Sys2Proof.Machine.execUnlistedMovsnd r s
  | .unlistedLoadsp r => Sys2Proof.Machine.execUnlistedLoadsp r s
  | .unlistedStoresp r => Sys2Proof.Machine.execUnlistedStoresp r s
  | .unlistedPop r => Sys2Proof.Machine.execUnlistedPop r s
  | .unlistedCmpieq r => Sys2Proof.Machine.execUnlistedCmpieq r s
  | .unlistedCmpilte r => Sys2Proof.Machine.execUnlistedCmpilte r s
  | .unlistedCmpigte r => Sys2Proof.Machine.execUnlistedCmpigte r s
  | .unlistedCmpiulte r => Sys2Proof.Machine.execUnlistedCmpiulte r s
  | .unlistedCmpiugte r => Sys2Proof.Machine.execUnlistedCmpiugte r s
  | .unlistedMovnw r => Sys2Proof.Machine.execUnlistedMovnw r s
  | .unlistedMovnd r => Sys2Proof.Machine.execUnlistedMovnd r s
  | .unlistedPushn r => Sys2Proof.Machine.execUnlistedPushn r s
  | .unlistedPopn r => Sys2Proof.Machine.execUnlistedPopn r s
  | .unlistedMovi r => Sys2Proof.Machine.execUnlistedMovi r s
  | .unlistedMovin r => Sys2Proof.Machine.execUnlistedMovin r s
  | .unlistedMovrel r => Sys2Proof.Machine.execUnlistedMovrel r s

end Sys2Proof.Machine
end

