-- ==== Sys2Proof/Machine/Step.lean ====
section
/-! DEFINITION. One step of the machine (40_execution_control.md R100), and the host's placing of an instruction at `pc`. -/

namespace Sys2Proof.Machine

/-- `Step(s)`: a stopped state has no step; else fetch and decode, execute, and commit one outcome (R100). -/
def step (s : State) : Host.Outcome State Fault Refusal :=
  match s.noStep with
  | some f => .fault f
  | none =>
    match s.fetch with
    | .error x => conclude s (.error x)
    | .ok p => retire p.2 (exec p.1 s)

/-- `s` with an instruction whose first `nbits` bits are `w`, and whose other bits are 0, stored at `pc` (the bytes inside the
region), and the run control clear, as a launch leaves it (70_reset_and_hazards.md R242), so that the next step runs it. -/
def State.withFetchWord (s : State) (nbits w : Nat) : State :=
  { s with
    mem := Memory.writeBytes s.mem s.pc.toNat ((leBytes maxLength (w % 2 ^ nbits)).take s.avail)
    halted := false
    error := none
    refused := none }

end Sys2Proof.Machine
end

