-- ==== Sys2Proof/Safety.lean ====
section
/-! DEFINITION. The terms in which claims are stated: running and well-kept states, when an operand is readable, what an operand
holds, and the state an instruction's result leaves, each written without the operations that can fail. -/

namespace Sys2Proof.Machine

/-! ## Runs -/

/-- None of the three run-control fields is set (10_state.md R29). -/
def State.Running (s : State) : Prop := s.halted = false ∧ s.error = none ∧ s.refused = none

/-- The only successful end of a run (40_execution_control.md R107). -/
def State.EndedNormally (s : State) : Prop := s.halted = true ∧ s.error = none ∧ s.refused = none

/-- Every listed address lies in the region `[0, MEM_SIZE)` (20_memory.md R40). -/
def Memory.inside (c : Config) (m : Memory) : Bool := m.all fun cell => decide (cell.1 < c.memSize)

/-- At most one way of ending has happened (40_execution_control.md R107). -/
def State.oneEnd (s : State) : Bool := s.halted.toNat + s.error.isSome.toNat + s.refused.isSome.toNat ≤ 1

/-- What every launch sets up and every step keeps: an admitted configuration, memory in canonical form and inside the region,
at most one of `halted`, `error` and `refused` set, and no `InvalidOperand` (60_exceptions.md R201). -/
def State.Inv (s : State) : Prop :=
  s.cfg.wf = true ∧ Memory.wf s.mem = true ∧ Memory.inside s.cfg s.mem = true ∧ s.oneEnd = true ∧
    s.error ≠ some .invalidOperand

/-! ## Decoding -/

/-- The length that the first byte of an instruction fixes (30_encoding.md R75). -/
def lengthOfFirstByte (c : Config) (b0 : Byte) : Nat :=
  match c.resolveOpcode (b0.setWidth 6) with
  | .generic _ => genericLen (b0.getLsbD 7)
  | .mov op => movLen op.idxLen (b0.getLsbD 7) (b0.getLsbD 6)
  | .unlisted _ => genericLen (b0.getLsbD 7)

/-! ## Operands -/

/-- `n` bytes at `addr` lie in the region (20_memory.md R44). -/
def InBounds (s : State) (addr : Word) (n : Nat) : Prop := addr.toNat + n ≤ s.cfg.memSize

/-- The `n` bytes at `addr` as a little-endian number (20_memory.md R42). -/
def State.load (s : State) (addr : Word) (n : Nat) : Nat := leNat (Memory.bytes s.mem addr.toNat n)

/-- The state with the low `n` bytes of `v` stored at `addr`, little-endian (20_memory.md R43). -/
def State.store (s : State) (addr : Word) (n : Nat) (v : Nat) : State :=
  { s with mem := Memory.writeBytes s.mem addr.toNat (leBytes n v) }

/-- The immediate-bearing slot can be read (40_execution_control.md R102). -/
def SlotReady (s : State) (r : GenericRec) (op : RegId) (ind : Bool) : Prop :=
  ind = true → InBounds s (slotAddress s r op) (opWidth r / 8)

/-- Operand1 of an ALU instruction can be read and written (40_execution_control.md R104). -/
def Op1Ready (s : State) (r : GenericRec) : Prop :=
  r.op1Indirect = true → InBounds s (s.reg r.operand1) (opWidth r / 8)

/-- What the immediate-bearing slot holds (40_execution_control.md R102). -/
def slotWord (s : State) (r : GenericRec) (op : RegId) (ind : Bool) : BitVec (opWidth r) :=
  if ind then BitVec.ofNat _ (s.load (slotAddress s r op) (opWidth r / 8))
  else if r.isImm then BitVec.ofNat _ (r.imm.toNat % 2 ^ 16)
  else (s.reg op).setWidth _

/-- What operand1 of an ALU instruction holds (40_execution_control.md R104). -/
def op1Word (s : State) (r : GenericRec) : BitVec (opWidth r) :=
  if r.op1Indirect then BitVec.ofNat _ (s.load (s.reg r.operand1) (opWidth r / 8))
  else (s.reg r.operand1).setWidth _

/-- The state in which an ALU result `v` stands in operand1 (40_execution_control.md R104). -/
def op1Result (s : State) (r : GenericRec) (v : BitVec (opWidth r)) : State :=
  if r.op1Indirect then s.store (s.reg r.operand1) (opWidth r / 8) v.toNat
  else s.setReg r.operand1 (placeResult s.cfg.w32Upper (s.reg r.operand1) v)

/-- The source of a MOV of `n` bytes with index width `L` can be read (43_mov.md R160). -/
def MovSourceReady (s : State) (n L : Nat) (r : MovRec) : Prop :=
  r.op2Indirect = true → InBounds s (movSourceAddress s L r) n

/-- The destination of a MOV of `n` bytes with index width `L` can be written (43_mov.md R160). -/
def MovDestReady (s : State) (n L : Nat) (r : MovRec) : Prop :=
  r.op1Indirect = true → InBounds s (movDestAddress s L r) n

/-- The `n`-byte value a MOV moves (43_mov.md R160). -/
def movNumber (s : State) (n L : Nat) (r : MovRec) : Nat :=
  if r.op2Indirect then s.load (movSourceAddress s L r) n else (s.reg r.operand2).toNat % 2 ^ (8 * n)

/-- The state in which the value `v` of a MOV stands in operand1 (43_mov.md R160, R161). -/
def movResult (s : State) (n L : Nat) (r : MovRec) (v : Nat) : State :=
  if r.op1Indirect then s.store (movDestAddress s L r) n v
  else s.setReg r.operand1 (regExt s.cfg.movRegExt n (BitVec.ofNat 64 v))

/-! ## Shapes of statements about instructions -/

/-- On readable operands that meet `ok`, the unary or binary ALU instruction `mk` completes with the result `f a b` in operand1. -/
def AluResult (mk : GenericRec → Instr) (ok : State → (W : Nat) → BitVec W → BitVec W → Prop)
    (f : State → (W : Nat) → BitVec W → BitVec W → BitVec W) : Prop :=
  ∀ (r : GenericRec) (s : State),
    SlotReady s r r.operand2 r.op2Indirect → Op1Ready s r →
    ok s (opWidth r) (op1Word s r) (slotWord s r r.operand2 r.op2Indirect) →
    exec (mk r) s =
      .next (op1Result s r (f s (opWidth r) (op1Word s r) (slotWord s r r.operand2 r.op2Indirect)))

/-- On readable operands that meet `bad`, the ALU instruction `mk` leaves `t s` and nothing else happens. -/
def AluStops (mk : GenericRec → Instr) (bad : (W : Nat) → BitVec W → BitVec W → Prop) (t : State → State) : Prop :=
  ∀ (r : GenericRec) (s : State),
    SlotReady s r r.operand2 r.op2Indirect → Op1Ready s r →
    bad (opWidth r) (op1Word s r) (slotWord s r r.operand2 r.op2Indirect) →
    exec (mk r) s = .next (t s)

/-- No condition on the operands. -/
def Always (_s : State) (W : Nat) (_a _b : BitVec W) : Prop := True

/-- With readable and writable operands and no index on a direct operand, the MOV `mk` completes. -/
def MovCompletes (mk : MovRec → Instr) (n L : Nat) : Prop :=
  ∀ (r : MovRec) (s : State),
    (r.isOp1Idx = true → r.op1Indirect = true) → (r.isOp2Idx = true → r.op2Indirect = true) →
    MovSourceReady s n L r → MovDestReady s n L r →
    exec (mk r) s = .next (movResult s n L r (movNumber s n L r))

/-- The fifteen ALU instructions (41_alu.md). -/
def aluInstrs : List (GenericRec → Instr) :=
  [.not, .neg, .add, .sub, .mul, .mulu, .div, .divu, .mod, .modu, .and, .or, .xor, .shl, .shr]

/-- The nine MOV instructions with `op_len` and `idx_len` (30_encoding.md R66). -/
def movInstrs : List ((MovRec → Instr) × Nat × Nat) :=
  [(.movbw, 1, 2), (.movbd, 1, 4), (.movww, 2, 2), (.movwd, 2, 4), (.movdw, 4, 2), (.movdd, 4, 4), (.movqw, 8, 2),
   (.movqd, 8, 4), (.movqq, 8, 8)]

/-- The thirty unlisted opcodes (30_encoding.md R68, R70). -/
def unlistedInstrs : List (GenericRec → Instr) :=
  [.unlistedBreak, .unlistedJmp, .unlistedJmp8, .unlistedCall, .unlistedCmpeq, .unlistedCmplte, .unlistedCmpgte,
   .unlistedCmpulte, .unlistedCmpugte, .unlistedAshr, .unlistedExtndb, .unlistedExtndw, .unlistedExtndd,
   .unlistedMovsnw, .unlistedMovsnd] ++
  [.unlistedLoadsp, .unlistedStoresp, .unlistedPop, .unlistedCmpieq, .unlistedCmpilte, .unlistedCmpigte,
   .unlistedCmpiulte, .unlistedCmpiugte, .unlistedMovnw, .unlistedMovnd, .unlistedPushn, .unlistedPopn,
   .unlistedMovi, .unlistedMovin, .unlistedMovrel]

/-! ## Which errors and refusals an instruction can end in (60_exceptions.md R202) -/

/-- The errors of R202's table, without `Truncated`, which the decoder raises. -/
def mayRaise (i : Instr) : List ErrorKind :=
  match i.record with
  | .generic op _ =>
    match op with
    | .nop => []
    | .ret => []
    | .div => [.outOfBounds, .divisionByZero]
    | .divu => [.outOfBounds, .divisionByZero]
    | .mod => [.outOfBounds, .divisionByZero]
    | .modu => [.outOfBounds, .divisionByZero]
    | _ => [.outOfBounds]
  | .mov _ _ => [.outOfBounds]
  | .unlisted _ _ => []

/-- The refusals of R202's table. -/
def mayRefuse (i : Instr) : List RefuseReason :=
  match i.record with
  | .generic op _ =>
    match op with
    | .div => [.signedDivisionOverflow]
    | .mod => [.signedDivisionOverflow]
    | .shl => [.shiftCountTooLarge]
    | .shr => [.shiftCountTooLarge]
    | .push => [.pushOfStackPointer]
    | _ => []
  | .mov _ _ => [.indexOnDirectOperand]
  | .unlisted _ r => [.unlistedOpcode r.rawOpcode]

end Sys2Proof.Machine
end

