-- ==== Sys2Proof/Certificates/Slice0/Obligations.lean ====
section
/-! DEFINITION. The statements for the provers, from the numbered rules of spec/. Each docstring names the rule or section. -/

open Sys2Proof Sys2Proof.Machine

/-! ## Registers, operands, memory -/

/-- R22: a register write replaces all 64 bits of that register and nothing else; a read after it gives the value written. -/
def Obligations.RegisterWriteThenRead : Prop :=
  ∀ (s : State) (r q : RegId) (v : Word),
    (s.setReg r v).reg r = v ∧ (q ≠ r → (s.setReg r v).reg q = s.reg q) ∧
      s.setReg r v = { s with regs := (s.setReg r v).regs }

/-- R23: `resolve_register(i) = Ri`, injective, and every 3-bit pattern is valid; beyond 7 the contract's `InvalidOperand`. -/
def Obligations.RegisterFieldsResolveInjectively : Prop :=
  (resolveRegister 0 = .ok .r0 ∧ resolveRegister 1 = .ok .r1 ∧ resolveRegister 2 = .ok .r2 ∧ resolveRegister 3 = .ok .r3 ∧
    resolveRegister 4 = .ok .r4 ∧ resolveRegister 5 = .ok .r5 ∧ resolveRegister 6 = .ok .r6 ∧ resolveRegister 7 = .ok .r7) ∧
  (∀ m n r, resolveRegister m = .ok r → resolveRegister n = .ok r → m = n) ∧
  (∀ b : BitVec 3, ∃ r, resolveRegister b.toNat = .ok r) ∧
  (∀ n, 7 < n → resolveRegister n = .error .invalidOperand)

/-- R44: an access of n bytes fails exactly when `addr + n > MEM_SIZE` on unbounded integers, so one whose last byte would
pass 2^64 - 1 always fails. Base 0 and no wrap are the spec's decisions D2 and D3. -/
def Obligations.AccessFailsExactlyOutOfBounds : Prop :=
  ∀ (s : State) (addr v : Word) (n : Nat), n ∈ [1, 2, 4, 8] → s.cfg.wf = true →
    ((memRead s addr n = .error (.error .outOfBounds)) ↔ s.cfg.memSize < addr.toNat + n) ∧
    ((∃ w, memRead s addr n = .ok w) ↔ addr.toNat + n ≤ s.cfg.memSize) ∧
    ((memWrite s addr n v = .error (.error .outOfBounds)) ↔ s.cfg.memSize < addr.toNat + n) ∧
    ((∃ t, memWrite s addr n v = .ok t) ↔ addr.toNat + n ≤ s.cfg.memSize) ∧
    (2 ^ 64 < addr.toNat + n →
      memRead s addr n = .error (.error .outOfBounds) ∧ memWrite s addr n v = .error (.error .outOfBounds))

/-- R42: `MemRead` fails out of bounds; else byte k of its 8n-bit value is the byte at addr + k. -/
def Obligations.ReadIsLittleEndian : Prop :=
  ∀ (s : State) (addr : Word) (n : Nat), n ∈ [1, 2, 4, 8] →
    (s.cfg.memSize < addr.toNat + n → memRead s addr n = .error (.error .outOfBounds)) ∧
    (addr.toNat + n ≤ s.cfg.memSize →
      ∃ v, memRead s addr n = .ok v ∧ v.toNat < 2 ^ (8 * n) ∧
        ∀ k, k < n → v.extractLsb' (8 * k) 8 = Memory.read s.mem (addr.toNat + k))

/-- R43: `MemWrite` fails and writes nothing out of bounds; else byte k of the value stands at addr + k, every other byte is
as before, and nothing but memory changes. "No byte is written when the access fails" is the spec's decision D17. -/
def Obligations.WriteSetsItsBytesOnly : Prop :=
  ∀ (s : State) (addr v : Word) (n : Nat), n ∈ [1, 2, 4, 8] → Memory.wf s.mem = true →
    (s.cfg.memSize < addr.toNat + n → memWrite s addr n v = .error (.error .outOfBounds)) ∧
    (addr.toNat + n ≤ s.cfg.memSize →
      ∃ t, memWrite s addr n v = .ok t ∧ t = { s with mem := t.mem } ∧
        (∀ k, k < n → Memory.read t.mem (addr.toNat + k) = v.extractLsb' (8 * k) 8) ∧
        (∀ a, a < addr.toNat ∨ addr.toNat + n ≤ a → Memory.read t.mem a = Memory.read s.mem a))

/-- R47: a read of the bytes written gives the low n bytes of the value written; a read of other bytes is unaffected, whatever
the two widths. The spec derives it from R42 and R43. -/
def Obligations.ReadAfterWrite : Prop :=
  ∀ (s t : State) (addr v : Word) (n : Nat), n ∈ [1, 2, 4, 8] → Memory.wf s.mem = true → memWrite s addr n v = .ok t →
    memRead t addr n = .ok (zext (8 * n) v) ∧
    ∀ (b : Word) (k : Nat), k ∈ [1, 2, 4, 8] →
      (b.toNat + k ≤ addr.toNat ∨ addr.toNat + n ≤ b.toNat) → memRead t b k = memRead s b k

/-- R102: the four cases of `SlotValue`, at both operation widths. The indirect-with-displacement case is the spec's decision
D7. -/
def Obligations.SlotValueCases : Prop :=
  ∀ (s : State) (r : GenericRec) (op : RegId) (W : Nat), W = 32 ∨ W = 64 →
    (r.isImm = true → slotValue s r op false W = .ok (BitVec.ofNat W (r.imm.toNat % 2 ^ 16))) ∧
    (r.isImm = true → slotValue s r op true W =
      (memRead s (s.reg op + BitVec.ofNat 64 (r.imm.toNat % 2 ^ 16)) (W / 8)).map (·.setWidth W)) ∧
    (r.isImm = false → slotValue s r op true W = (memRead s (s.reg op) (W / 8)).map (·.setWidth W)) ∧
    (r.isImm = false → slotValue s r op false W = .ok (BitVec.ofNat W (s.reg op).toNat))

/-- R104: where operand1 is, what is read from it, and what a 32-bit result does to bits 63:32 of a register. Bits 63:32
follow the spec's decision D8. -/
def Obligations.Operand1ReadAndWrite : Prop :=
  ∀ (s : State) (r : GenericRec),
    (∀ W, W = 32 ∨ W = 64 →
      (r.op1Indirect = true → op1Value s r W = (memRead s (s.reg r.operand1) (W / 8)).map (·.setWidth W)) ∧
      (r.op1Indirect = false → op1Value s r W = .ok (BitVec.ofNat W (s.reg r.operand1).toNat)) ∧
      (∀ v : BitVec W, r.op1Indirect = true →
        op1Write s r v = memWrite s (s.reg r.operand1) (W / 8) (BitVec.ofNat 64 v.toNat))) ∧
    (∀ v : BitVec 64, r.op1Indirect = false → op1Write s r v = .ok (s.setReg r.operand1 v)) ∧
    (∀ v : BitVec 32, r.op1Indirect = false →
      ∃ x : Word, op1Write s r v = .ok (s.setReg r.operand1 x) ∧ x.extractLsb' 0 32 = v ∧
        x.extractLsb' 32 32 =
          match s.cfg.w32Upper with
          | .zero => 0
          | .sign => if v.msb then BitVec.allOnes 32 else 0
          | .preserve => (s.reg r.operand1).extractLsb' 32 32)

/-- R161: a MOV value written to a register is zero-extended or sign-extended by `P_MOV_REG_EXT`; 8 bytes are taken whole. The
spec's decisions D14 and D16. -/
def Obligations.MovRegisterExtension : Prop :=
  ∀ (v : Word) (n : Nat), n ∈ [1, 2, 4, 8] →
    (regExt .zero n v).toNat = v.toNat % 2 ^ (8 * n) ∧
    (regExt .sign n v).toInt = (v.setWidth (8 * n)).toInt ∧
    (∀ p, regExt p 8 v = v)

/-! ## Decoding and encoding -/

/-- 30_encoding.md sections 1-3: one word of each class, written out from the field table of R61 and the default map of R68.
Bit 11 is the spec's choice C1 and the map its decision D4. -/
def Obligations.WordsDecodeAsTheSpecSays : Prop :=
  decode Config.default [0x0C#8, 0x21#8] = .ok (.add ⟨0x0C, false, false, .r1, false, .r2, false, 0⟩, 2) ∧
  decode Config.default [0xEB#8, 0x09#8, 0x10#8, 0x00#8] = .ok (.push ⟨0x2B, true, true, .r1, true, .r0, false, 0x10⟩, 4) ∧
  decode Config.default [0xDF#8, 0xA9#8, 0x04#8, 0x00#8, 0xFC#8, 0xFF#8] =
    .ok (.movdw ⟨0x1F, .r1, true, .r2, true, true, true, 0x0004, 0xFFFC⟩, 6) ∧
  decode Config.default [0xBF#8, 0x00#8, 0x34#8, 0x12#8] =
    .ok (.nop ⟨0x3F, true, false, .r0, false, .r0, false, 0x1234⟩, 4) ∧
  decode Config.default [0x0C#8, 0x48#8] = .ok (.add ⟨0x0C, false, false, .r0, true, .r4, false, 0⟩, 2)

/-- Decode of encode: under every configuration, every well-formed instruction is read back whole, whatever bytes follow. (An
unlisted opcode is well formed only under `P_UNLISTED_POLICY = nop`, R70, R76.) It rests on the spec's choices C1 (bit 11) and C5
(the raw opcode in the record); that an unlisted opcode decodes to an instruction of its own name is the model's (log entry 10). -/
def Obligations.DecodeOfEncodeIsIdentity : Prop :=
  ∀ (c : Config) (i : Instr) (rest : List Byte), i.wf c = true → decode c (encode i ++ rest) = .ok (i, i.length)

/-- R76: every header that decodes is the encoding of its record, and so are the trailing bytes. It rests on the spec's choices C1
and C5; the trailing bytes are its derivation. -/
def Obligations.EncodeOfDecodeIsIdentity : Prop :=
  ∀ (c : Config) (b : List Byte) (i : Instr) (len : Nat), decode c b = .ok (i, len) →
    (encode i).take 2 = b.take 2 ∧ encode i = b.take len

/-- R74, R27: what the decoder answers is well formed, and its length is that of R75 and within the bytes given. That absent
fields are 0 is the spec's decision D6; that an unlisted opcode decoded under `nop` keeps its own tag, where R74 sets the opcode to
NOP, is the model's choice (log entry 10). -/
def Obligations.DecodedInstructionsAreWellFormed : Prop :=
  ∀ (c : Config) (b : List Byte) (i : Instr) (len : Nat), decode c b = .ok (i, len) →
    i.wf c = true ∧ 2 ≤ len ∧ len ≤ 18 ∧ len ≤ b.length ∧ len = i.length

/-- R77 with R75: there is no illegal encoding. A header with an unlisted opcode is refused by its raw value under the `refuse`
policy, whatever follows it (R70, R203); every other decoding fails exactly when there are fewer bytes than the length fixed by the
first byte, with `Truncated`. The policy is the spec's decision D5; that an unlisted opcode decodes under `nop` to an instruction
of its own name is the model's choice (log entry 10). -/
def Obligations.DecodingFailsOnlyWhenTruncated : Prop :=
  ∀ (c : Config),
    decode c [] = .error (.error .truncated) ∧ (∀ b0, decode c [b0] = .error (.error .truncated)) ∧
    ∀ (b0 b1 : Byte) (rest : List Byte),
      ((c.unlistedPolicy = .refuse ∧ ∃ op, c.resolveOpcode (b0.setWidth 6) = .unlisted op) →
        decode c (b0 :: b1 :: rest) = .error (.refuse (.unlistedOpcode (b0.setWidth 6)))) ∧
      (¬ (c.unlistedPolicy = .refuse ∧ ∃ op, c.resolveOpcode (b0.setWidth 6) = .unlisted op) →
        if 2 + rest.length < lengthOfFirstByte c b0
        then decode c (b0 :: b1 :: rest) = .error (.error .truncated)
        else ∃ i, decode c (b0 :: b1 :: rest) = .ok (i, lengthOfFirstByte c b0))

/-- R74: "the decoder reads no memory beyond b[len-1]": the bytes after the instruction do not matter. -/
def Obligations.DecoderReadsOnlyItsBytes : Prop :=
  ∀ (c : Config) (b rest : List Byte) (i : Instr) (len : Nat), decode c b = .ok (i, len) →
    decode c (b.take len ++ rest) = .ok (i, len)

/-! ## The step -/

/-- R100: a running step fetches at `pc` and runs exactly the instruction decoded; `pc` moves past it unless the run ended,
and the decoder's error or refusal is taken. Advancing `pc` in the step, not on a halt, is the spec's decisions D19 and D20. -/
def Obligations.StepRunsTheDecodedInstruction : Prop :=
  ∀ s : State, s.Running →
    (∀ i len, decode s.cfg s.window = .ok (i, len) →
      step s = match exec i s with
        | .next t =>
          .next (if t.halted = true ∨ t.error ≠ none ∨ t.refused ≠ none then t
            else { t with pc := t.pc + BitVec.ofNat 64 len })
        | .fault f => .fault f
        | .refused r => .refused r) ∧
    (∀ e, decode s.cfg s.window = .error (.error e) → step s = .next { s with error := some e }) ∧
    (∀ r, decode s.cfg s.window = .error (.refuse r) → step s = .next { s with refused := some r })

/-- R55: the fetch window is the bytes from `pc` to the region's end, and no more than 18 of them: the cut at the longest
instruction is the model's (log entry 11), where R55 gives all `MEM_SIZE - pc`. The fetch is refused on an unlisted opcode under
the `refuse` policy (the spec's D5); else it succeeds exactly when the bytes its first byte calls for are in the region, and fails
with `Truncated` when they are not. Taking the bytes from memory is the spec's decision D19. -/
def Obligations.FetchWindowIsMemoryAtPc : Prop :=
  ∀ s : State,
    s.window.length = min 18 (s.cfg.memSize - s.pc.toNat) ∧
    (∀ k (h : k < s.window.length), s.window[k] = Memory.read s.mem (s.pc.toNat + k)) ∧
    (s.cfg.memSize < s.pc.toNat + 2 → s.fetch = .error (.error .truncated)) ∧
    (s.pc.toNat + 2 ≤ s.cfg.memSize →
      (s.cfg.unlistedPolicy = .refuse ∧ ∃ op, s.cfg.resolveOpcode ((Memory.read s.mem s.pc.toNat).setWidth 6) = .unlisted op) →
      s.fetch = .error (.refuse (.unlistedOpcode ((Memory.read s.mem s.pc.toNat).setWidth 6)))) ∧
    (s.pc.toNat + 2 ≤ s.cfg.memSize →
      ¬ (s.cfg.unlistedPolicy = .refuse ∧ ∃ op, s.cfg.resolveOpcode ((Memory.read s.mem s.pc.toNat).setWidth 6) = .unlisted op) →
      if s.cfg.memSize < s.pc.toNat + lengthOfFirstByte s.cfg (Memory.read s.mem s.pc.toNat)
      then s.fetch = .error (.error .truncated)
      else ∃ i, s.fetch = .ok (i, lengthOfFirstByte s.cfg (Memory.read s.mem s.pc.toNat)))

/-- R53: a store is seen by every later fetch. -/
def Obligations.StoresAreSeenByFetch : Prop :=
  ∀ (s t : State) (addr v : Word) (n : Nat), n ∈ [1, 2, 4, 8] → Memory.wf s.mem = true → memWrite s addr n v = .ok t →
    ∀ (u : State), u.mem = t.mem → ∀ k (h : k < u.window.length),
      u.window[k] =
        if addr.toNat ≤ u.pc.toNat + k ∧ u.pc.toNat + k < addr.toNat + n
        then v.extractLsb' (8 * (u.pc.toNat + k - addr.toNat)) 8
        else Memory.read s.mem (u.pc.toNat + k)

/-- R29, R100: exactly the running states have a step, every running state has one, and a step is never refused. The sticky
fields are the spec's decision D17; that a stopped state faults is the model's (log entry 9). -/
def Obligations.RunningStatesAndOnlyTheyStep : Prop :=
  ∀ s : State,
    (s.Running ↔ ∃ t, step s = .next t) ∧ (¬ s.Running ↔ ∃ f, step s = .fault f) ∧ ∀ r, step s ≠ .refused r

/-- No step changes a parameter of R8, and every step keeps the invariant of `State.Inv`: an admitted configuration, canonical
memory inside the region, at most one end of run, no `InvalidOperand`. -/
def Obligations.StepKeepsInvariant : Prop :=
  ∀ s t : State, step s = .next t → t.cfg = s.cfg ∧ (s.Inv → t.Inv)

/-- The invariant holds in the reset state (whose values the model chose: log entries 2 to 5). -/
def Obligations.ResetMeetsInvariant : Prop := State.reset.Inv

/-- R240, R32, R56: whatever parameters, registers, image and entry are supplied, a launch meets the invariant, can step, and holds
them; each byte of the region is the image's last cell for its address. The launch argument `ENTRY_PC` and the clear run control
are the spec's decisions D27 and D17. That an address the image does not list reads 0 (log entry 4), and that a cell outside the
region is not loaded (log entry 15), are the model's choices. -/
def Obligations.LaunchMeetsInvariant : Prop :=
  ∀ (c : Config) (regs : RegFile) (image : List Host.Cell) (entry : Word), c.wf = true →
    (State.launch c regs image entry).Inv ∧ (State.launch c regs image entry).Running ∧
      (State.launch c regs image entry).pc = entry ∧ (State.launch c regs image entry).regs = regs ∧
      (State.launch c regs image entry).cfg = c ∧
      (∀ before a b later, image = before ++ (a, b) :: later → (∀ cell ∈ later, cell.1 ≠ a) → a < c.memSize →
        Memory.read (State.launch c regs image entry).mem a = b) ∧
      (∀ a, (∀ cell ∈ image, cell.1 ≠ a) ∨ c.memSize ≤ a → Memory.read (State.launch c regs image entry).mem a = 0)

/-- The reset state: the run-control fields as R32 gives them; registers, memory, `pc` and `MEM_SIZE` as the model chose them
(log entries 2 to 5), the other parameters at R8's defaults, `OPCODE_MAP` at the table of R68 (log entries 5 and 6). -/
def Obligations.ResetState : Prop :=
  State.reset.halted = false ∧ State.reset.error = none ∧ State.reset.refused = none ∧
  (∀ r, State.reset.reg r = 0) ∧ (∀ a, Memory.read State.reset.mem a = 0) ∧ State.reset.pc = 0x200 ∧
  State.reset.cfg.memSize = 0x1000 ∧ State.reset.cfg.opcodeMap = defaultOpcodeMap ∧
  State.reset.cfg.unlistedPolicy = .refuse ∧ State.reset.cfg.w32Upper = .zero ∧ State.reset.cfg.shrKind = .arith ∧
  State.reset.cfg.movRegExt = .zero

/-- R25: after an instruction that neither halts nor fails, `pc` has moved by the consumed length modulo 2^64; after one that
halts, fails or is refused it has not moved; nothing else moves it. The spec's decisions D19 and D20. -/
def Obligations.ProgramCounterAdvancesByLength : Prop :=
  ∀ s t : State, step s = .next t →
    (t.Running ∧ ∃ i len, s.fetch = .ok (i, len) ∧ len = i.length ∧ t.pc = s.pc + BitVec.ofNat 64 len) ∨
      (¬ t.Running ∧ t.pc = s.pc)

/-- R204: taking an error sets `error` to its kind and changes nothing else. For the kinds other than `DivisionByZero` it is
the spec's decision D17. -/
def Obligations.ErrorsChangeNothingElse : Prop :=
  ∀ (s t : State) (e : ErrorKind), step s = .next t → t.error = some e → t = { s with error := some e }

/-- R207: a refusal sets `refused` to its reason and changes nothing else. Refusals are the spec's decision D32; that they are
next states is the model's (log entry 8). -/
def Obligations.RefusalsChangeNothingElse : Prop :=
  ∀ (s t : State) (r : RefuseReason), step s = .next t → t.refused = some r → t = { s with refused := some r }

/-- R106, R108: RET, and no other instruction, ends a run normally; it changes nothing but `halted`. The spec's decision D20. -/
def Obligations.OnlyRetHalts : Prop :=
  ∀ s t : State, step s = .next t →
    (t.halted = true ↔ ∃ r len, s.fetch = .ok (.ret r, len)) ∧
    (t.halted = true → t = { s with halted := true })

/-- R202: the errors and refusals each instruction can end in, and no others; R201: `InvalidOperand` and `Truncated` never
from execution. The spec derives the table from its instruction rules. That `exec` too can refuse an unlisted opcode, which R74
refuses in the decoder, is the model's choice (log entry 10). -/
def Obligations.ErrorsAndRefusalsByInstruction : Prop :=
  ∀ (i : Instr) (s t : State), s.error = none → s.refused = none → exec i s = .next t →
    (∀ e, t.error = some e → e ∈ mayRaise i) ∧ (∀ r, t.refused = some r → r ∈ mayRefuse i)

/-- 91 N15: no instruction reads or writes the program counter: execution commutes with any change of `pc`. -/
def Obligations.ProgramCounterIsInvisible : Prop :=
  ∀ (i : Instr) (s : State) (p : Word),
    ∃ t, exec i s = .next t ∧ exec i { s with pc := p } = .next { t with pc := p }

/-! ## NOP, RET, unlisted -/

/-- R105: NOP changes no state and the step only advances `pc`, whatever the fields; every raw value with no assigned meaning is
one, of length 2 or, with bit 7 set, 4, and cut short it fails to decode. -/
def Obligations.NopOnlyAdvances : Prop :=
  (∀ (r : GenericRec) (s : State),
    exec (.nop r) s = .next s ∧
    ∀ len, s.Running → s.fetch = .ok (.nop r, len) → step s = .next { s with pc := s.pc + BitVec.ofNat 64 len }) ∧
  ∀ s : State, s.Running → s.pc.toNat + 2 ≤ s.cfg.memSize →
    s.cfg.opcodeMap.lookup ((Memory.read s.mem s.pc.toNat).setWidth 6) = none →
    step s =
      if s.pc.toNat + (if (Memory.read s.mem s.pc.toNat).getLsbD 7 then 4 else 2) ≤ s.cfg.memSize
      then .next { s with pc := s.pc + if (Memory.read s.mem s.pc.toNat).getLsbD 7 then 4 else 2 }
      else .next { s with error := some .truncated }

/-- R106: RET sets `halted`; registers, memory and `pc` stay, in the step too. The spec's decision D20. -/
def Obligations.RetHalts : Prop :=
  ∀ (r : GenericRec) (s : State),
    exec (.ret r) s = .next { s with halted := true } ∧
    ∀ len, s.Running → s.fetch = .ok (.ret r, len) → step s = .next { s with halted := true }

/-- R70 under `P_UNLISTED_POLICY = nop`: each of the thirty unlisted opcodes is a NOP. The policy is the spec's decision D5;
that each has an instruction of its own, where R74 makes the record's opcode NOP, is the model's choice (log entry 10). -/
def Obligations.UnlistedIsNopUnderNopPolicy : Prop :=
  ∀ mk ∈ unlistedInstrs, ∀ (r : GenericRec) (s : State), s.cfg.unlistedPolicy = .nop →
    exec (mk r) s = .next s ∧
    ∀ len, s.Running → s.fetch = .ok (mk r, len) → step s = .next { s with pc := s.pc + BitVec.ofNat 64 len }

/-- `P_UNLISTED_POLICY = refuse`. First clause, the model's own answer (log entry 10): `exec`, given an unlisted opcode's
instruction directly, refuses it by its raw value; R74 refuses it in the decoder and R101 has no such class. Second clause, R70 with
R74: a step at an unlisted opcode is refused by its raw value and changes nothing else, even when the bytes after the header are
missing (R203). The policy is the spec's decision D5. -/
def Obligations.UnlistedIsRefusedUnderRefusePolicy : Prop :=
  (∀ mk ∈ unlistedInstrs, ∀ (r : GenericRec) (s : State), s.cfg.unlistedPolicy = .refuse →
    exec (mk r) s = .next { s with refused := some (.unlistedOpcode r.rawOpcode) }) ∧
  ∀ (s : State) (op : UnlistedOp), s.Running → s.cfg.unlistedPolicy = .refuse → s.pc.toNat + 2 ≤ s.cfg.memSize →
    s.cfg.resolveOpcode ((Memory.read s.mem s.pc.toNat).setWidth 6) = .unlisted op →
    step s = .next { s with refused := some (.unlistedOpcode ((Memory.read s.mem s.pc.toNat).setWidth 6)) }

/-- R78: the fields NOP, RET and PUSH do not use have no effect. The spec's decision D33. -/
def Obligations.UnusedFieldsAreIgnored : Prop :=
  ∀ (s : State) (r r' : GenericRec) (op : RegId) (ind : Bool),
    exec (.nop r) s = exec (.nop r') s ∧ exec (.ret r) s = exec (.ret r') s ∧
    exec (.push { r with operand2 := op, op2Indirect := ind }) s = exec (.push r) s

/-- Frame of NOP, RET and the unlisted opcodes: registers, memory, configuration and `pc` stay. That an unlisted opcode has an
instruction of its own, with an answer under either policy, is the model's choice (log entry 10). -/
def Obligations.ControlFrame : Prop :=
  ∀ mk ∈ (Instr.nop :: Instr.ret :: unlistedInstrs), ∀ (r : GenericRec) (s t : State), exec (mk r) s = .next t →
    t.regs = s.regs ∧ (∀ a, Memory.read t.mem a = Memory.read s.mem a) ∧ t.mem = s.mem ∧ t.pc = s.pc ∧ t.cfg = s.cfg ∧
      t.error = s.error

/-! ## ALU -/

/-- R122, R123: the results of NOT and NEG, for every operand form and both widths. That operand2 is the source is the spec's
decision D9, that NEG wraps D30. -/
def Obligations.UnaryResults : Prop :=
  AluResult .not Always (fun _ W _ b => BitVec.ofNat W (2 ^ W - 1 - b.toNat)) ∧
  AluResult .neg Always (fun _ W _ b => BitVec.ofInt W (-b.toInt))

/-- R124, R125: the results of ADD and SUB wrap modulo 2^W. Silent wrapping is the spec's decision D30. -/
def Obligations.AddSubResults : Prop :=
  AluResult .add Always (fun _ W a b => BitVec.ofInt W (a.toInt + b.toInt)) ∧
  AluResult .sub Always (fun _ W a b => BitVec.ofNat W (a.toNat + 2 ^ W - b.toNat))

/-- R126, R127: MUL multiplies signed, MULU unsigned, both modulo 2^W. Silent wrapping is the spec's decision D30. -/
def Obligations.MultiplyResults : Prop :=
  AluResult .mul Always (fun _ W a b => BitVec.ofInt W (a.toInt * b.toInt)) ∧
  AluResult .mulu Always (fun _ W a b => BitVec.ofNat W (a.toNat * b.toNat))

/-- R137: MUL and MULU give identical outcomes in every state, for every operand form. The spec derives it from R126 and R127. -/
def Obligations.MulAndMuluAgree : Prop :=
  ∀ (r : GenericRec) (s : State), exec (.mul r) s = exec (.mulu r) s

/-- R128, R130: DIV rounds toward zero and MOD has the dividend's sign, on a nonzero divisor outside the overflowing case. The
rounding is the spec's decision D10, the excluded case D11. -/
def Obligations.SignedDivisionResults : Prop :=
  AluResult .div (fun _ W a b => b ≠ 0 ∧ ¬ (a.toInt = -(2 ^ (W - 1)) ∧ b.toInt = -1))
    (fun _ W a b => BitVec.ofInt W (a.toInt.tdiv b.toInt)) ∧
  AluResult .mod (fun _ W a b => b ≠ 0 ∧ ¬ (a.toInt = -(2 ^ (W - 1)) ∧ b.toInt = -1))
    (fun _ W a b => BitVec.ofInt W (a.toInt.tmod b.toInt))

/-- R130, R137: for both widths the quotient and remainder satisfy `div_t(a, b) * b + rem_t(a, b) = a` on the signed integers
themselves; the remainder is smaller than the divisor and has the dividend's sign. The spec derives it from its definitions of
the two operations. -/
def Obligations.SignedDivisionIdentity : Prop :=
  ∀ W, W = 32 ∨ W = 64 → ∀ a b q m : BitVec W, aluDiv W a b = .ok q → aluMod W a b = .ok m →
    q.toInt * b.toInt + m.toInt = a.toInt ∧ m.toInt.natAbs < b.toInt.natAbs ∧
      (0 ≤ a.toInt → 0 ≤ m.toInt) ∧ (a.toInt ≤ 0 → m.toInt ≤ 0)

/-- R129, R131: DIVU and MODU on a nonzero divisor. -/
def Obligations.UnsignedDivisionResults : Prop :=
  AluResult .divu (fun _ _ _ b => b ≠ 0) (fun _ W a b => BitVec.ofNat W (a.toNat / b.toNat)) ∧
  AluResult .modu (fun _ _ _ b => b ≠ 0) (fun _ W a b => BitVec.ofNat W (a.toNat % b.toNat))

/-- R132, R133, R134: bit i of AND, OR and XOR is that operation on bit i. -/
def Obligations.BitwiseResults : Prop :=
  AluResult .and Always (fun _ W a b => BitVec.ofFnLE fun i : Fin W => a.getLsbD i && b.getLsbD i) ∧
  AluResult .or Always (fun _ W a b => BitVec.ofFnLE fun i : Fin W => a.getLsbD i || b.getLsbD i) ∧
  AluResult .xor Always (fun _ W a b => BitVec.ofFnLE fun i : Fin W => a.getLsbD i ^^ b.getLsbD i)

/-- R135, R136: shifts by less than W; SHR is a floor division of the signed or the unsigned value by `P_SHR_KIND`. The kind
of SHR is the spec's decision D13, the bound on the count D12. -/
def Obligations.ShiftResults : Prop :=
  AluResult .shl (fun _ W _ b => b.toNat < W) (fun _ W a b => BitVec.ofNat W (a.toNat * 2 ^ b.toNat)) ∧
  AluResult .shr (fun _ W _ b => b.toNat < W) (fun s W a b =>
    match s.cfg.shrKind with
    | .arith => BitVec.ofInt W (a.toInt / 2 ^ b.toNat)
    | .logical => BitVec.ofNat W (a.toNat / 2 ^ b.toNat))

/-- R128 to R131: with a zero W-bit divisor DIV, DIVU, MOD and MODU take `DivisionByZero` and change nothing else. -/
def Obligations.DivisionByZeroIsTaken : Prop :=
  ∀ mk ∈ [Instr.div, Instr.divu, Instr.mod, Instr.modu],
    AluStops mk (fun _ _ b => b = 0) (fun s => { s with error := some .divisionByZero })

/-- R128, R130: the most negative value divided by -1 is refused, for DIV and MOD. The spec's decision D11. -/
def Obligations.SignedOverflowIsRefused : Prop :=
  ∀ mk ∈ [Instr.div, Instr.mod],
    AluStops mk (fun W a b => a.toInt = -(2 ^ (W - 1)) ∧ b.toInt = -1)
      (fun s => { s with refused := some .signedDivisionOverflow })

/-- R135, R136: a shift count of W or more is refused. The spec's decision D12. -/
def Obligations.LargeShiftsAreRefused : Prop :=
  ∀ mk ∈ [Instr.shl, Instr.shr],
    AluStops mk (fun W _ b => W ≤ b.toNat) (fun s => { s with refused := some .shiftCountTooLarge })

/-- R203 (5, 6, 8), R121: an ALU instruction with an operand out of bounds takes `OutOfBounds`, whatever the divisor or the
count, and changes nothing else. The order and that nothing changes are the spec's decisions D18 and D17. -/
def Obligations.AluOutOfBoundsIsTaken : Prop :=
  ∀ mk ∈ aluInstrs, ∀ (r : GenericRec) (s : State),
    ¬ SlotReady s r r.operand2 r.op2Indirect ∨ ¬ Op1Ready s r →
    exec (mk r) s = .next { s with error := some .outOfBounds }

/-- R24, R46, R103: the frame of the fifteen ALU instructions. Only a direct operand1's register and an indirect operand1's
W/8 bytes can change; an error or a refusal changes neither. That a failing instruction writes nothing is the spec's decision
D17. -/
def Obligations.AluFrame : Prop :=
  ∀ mk ∈ aluInstrs, ∀ (r : GenericRec) (s t : State), Memory.wf s.mem = true → exec (mk r) s = .next t →
    t.cfg = s.cfg ∧ t.pc = s.pc ∧ t.halted = s.halted ∧
    (∀ q, r.op1Indirect = true ∨ q ≠ r.operand1 → t.reg q = s.reg q) ∧
    (r.op1Indirect = false → ∀ a, Memory.read t.mem a = Memory.read s.mem a) ∧
    (∀ a, a < (s.reg r.operand1).toNat ∨ (s.reg r.operand1).toNat + opWidth r / 8 ≤ a →
      Memory.read t.mem a = Memory.read s.mem a) ∧
    ((t.error = s.error ∧ t.refused = s.refused) ∨ (t.regs = s.regs ∧ t.mem = s.mem))

/-- R46: an ALU instruction with two direct operands neither reads nor writes memory. The spec derives it from its instruction
rules. -/
def Obligations.RegisterFormsIgnoreMemory : Prop :=
  ∀ mk ∈ aluInstrs, ∀ (r : GenericRec) (s : State) (m : Memory), r.op1Indirect = false → r.op2Indirect = false →
    ∃ t, exec (mk r) s = .next t ∧ exec (mk r) { s with mem := m } = .next { t with mem := m } ∧ t.mem = s.mem

/-! ## PUSH -/

/-- R150: PUSH stores the slot's value at R0 - n and sets R0 to that address. The order of value, address and write is the
spec's decision D28. -/
def Obligations.PushStoresAndDecrements : Prop :=
  ∀ (r : GenericRec) (s : State), r.operand1 ≠ .r0 → SlotReady s r r.operand1 r.op1Indirect →
    InBounds s (s.reg .r0 - BitVec.ofNat 64 (opWidth r / 8)) (opWidth r / 8) →
    exec (.push r) s = .next
      { s with
        mem := Memory.writeBytes s.mem (s.reg .r0 - BitVec.ofNat 64 (opWidth r / 8)).toNat
          (leBytes (opWidth r / 8) (slotWord s r r.operand1 r.op1Indirect).toNat)
        regs := s.regs.set .r0 (s.reg .r0 - BitVec.ofNat 64 (opWidth r / 8)) }

/-- R151: the two PUSH behaviours the source tests, in every state that has the given registers and bytes. -/
def Obligations.PushSourceTests : Prop :=
  (∀ s : State, s.reg .r0 = 0x14 → s.reg .r1 = 0x01234567 → 0x14 ≤ s.cfg.memSize → Memory.wf s.mem = true →
    ∃ t, exec (.push ⟨0x2B, false, false, .r1, false, .r0, false, 0⟩) s = .next t ∧ t.reg .r0 = 0x10 ∧
      memRead t 0x10 4 = .ok 0x01234567) ∧
  (∀ s : State, s.reg .r0 = 0x18 → s.reg .r1 = 0x20 → memRead s 0x30 8 = .ok 0x0123456789ABCDEF → Memory.wf s.mem = true →
    ∃ t, exec (.push ⟨0x2B, true, true, .r1, true, .r0, false, 0x10⟩) s = .next t ∧ t.reg .r0 = 0x10 ∧
      memRead t 0x10 8 = .ok 0x0123456789ABCDEF)

/-- R152: PUSH whose operand1 field is R0 is refused in every form, and nothing else changes. The spec's decision D22. -/
def Obligations.PushOfR0IsRefused : Prop :=
  ∀ (r : GenericRec) (s : State), r.operand1 = .r0 →
    exec (.push r) s = .next { s with refused := some .pushOfStackPointer }

/-- R150: an unreadable operand or a new R0 out of bounds takes `OutOfBounds`; R0 and memory stay. The spec's decision D17. -/
def Obligations.PushOutOfBoundsIsTaken : Prop :=
  ∀ (r : GenericRec) (s : State), r.operand1 ≠ .r0 →
    ¬ SlotReady s r r.operand1 r.op1Indirect ∨
      ¬ InBounds s (s.reg .r0 - BitVec.ofNat 64 (opWidth r / 8)) (opWidth r / 8) →
    exec (.push r) s = .next { s with error := some .outOfBounds }

/-- The frame of PUSH: only R0 and the W/8 bytes at R0 - W/8 can change. That a failing PUSH writes nothing is the spec's
decision D17. -/
def Obligations.PushFrame : Prop :=
  ∀ (r : GenericRec) (s t : State), Memory.wf s.mem = true → exec (.push r) s = .next t →
    t.cfg = s.cfg ∧ t.pc = s.pc ∧ t.halted = s.halted ∧ (∀ q, q ≠ .r0 → t.reg q = s.reg q) ∧
    (∀ a, a < (pushAddress r s).toNat ∨ (pushAddress r s).toNat + opWidth r / 8 ≤ a →
      Memory.read t.mem a = Memory.read s.mem a) ∧
    ((t.error = s.error ∧ t.refused = s.refused) ∨ (t.regs = s.regs ∧ t.mem = s.mem))

/-! ## MOV -/

/-- R160, R162 to R170: each MOV moves `op_len` bytes from operand2 to operand1, with indexes of `idx_len` bytes. That
operand2 is the source is the spec's decision D34. -/
def Obligations.MovResults : Prop :=
  MovCompletes .movbw 1 2 ∧ MovCompletes .movbd 1 4 ∧ MovCompletes .movww 2 2 ∧ MovCompletes .movwd 2 4 ∧
  MovCompletes .movdw 4 2 ∧ MovCompletes .movdd 4 4 ∧ MovCompletes .movqw 8 2 ∧ MovCompletes .movqd 8 4 ∧
  MovCompletes .movqq 8 8

/-- R160, R72: the address of an indirect MOV operand is the register plus the index as a signed two's-complement displacement,
modulo 2^64, or the register alone. -/
def Obligations.MovIndexIsSignedDisplacement : Prop :=
  ∀ (s : State) (op : RegId) (L : Nat) (idx : Word), L ∈ [2, 4, 8] → idx.toNat < 2 ^ (8 * L) →
    movAddress s op L false idx = s.reg op ∧
    movAddress s op L true idx =
      s.reg op + BitVec.ofInt 64 (if idx.toNat < 2 ^ (8 * L - 1) then (idx.toNat : Int) else (idx.toNat : Int) - 2 ^ (8 * L))

/-- R160: an index flag on a direct operand, either one, is refused before anything is read (R203), and nothing changes. The
spec's decision D15. -/
def Obligations.IndexOnDirectOperandIsRefused : Prop :=
  ∀ p ∈ movInstrs, ∀ (r : MovRec) (s : State),
    (r.op2Indirect = false ∧ r.isOp2Idx = true) ∨ (r.op1Indirect = false ∧ r.isOp1Idx = true) →
    exec (p.1 r) s = .next { s with refused := some .indexOnDirectOperand }

/-- R160, R44: a MOV whose source or destination is out of bounds takes `OutOfBounds` and changes nothing else. The spec's
decision D17. -/
def Obligations.MovOutOfBoundsIsTaken : Prop :=
  ∀ p ∈ movInstrs, ∀ (r : MovRec) (s : State),
    (r.isOp1Idx = true → r.op1Indirect = true) → (r.isOp2Idx = true → r.op2Indirect = true) →
    ¬ MovSourceReady s p.2.1 p.2.2 r ∨ ¬ MovDestReady s p.2.1 p.2.2 r →
    exec (p.1 r) s = .next { s with error := some .outOfBounds }

/-- The frame of the nine MOVs: only a direct operand1's register and an indirect operand1's `op_len` bytes can change. That a
failing MOV writes nothing is the spec's decision D17. -/
def Obligations.MovFrame : Prop :=
  ∀ p ∈ movInstrs, ∀ (r : MovRec) (s t : State), Memory.wf s.mem = true → exec (p.1 r) s = .next t →
    t.cfg = s.cfg ∧ t.pc = s.pc ∧ t.halted = s.halted ∧
    (∀ q, r.op1Indirect = true ∨ q ≠ r.operand1 → t.reg q = s.reg q) ∧
    (r.op1Indirect = false → ∀ a, Memory.read t.mem a = Memory.read s.mem a) ∧
    (∀ a, a < (movDestAddress s p.2.2 r).toNat ∨ (movDestAddress s p.2.2 r).toNat + p.2.1 ≤ a →
      Memory.read t.mem a = Memory.read s.mem a) ∧
    ((t.error = s.error ∧ t.refused = s.refused) ∨ (t.regs = s.regs ∧ t.mem = s.mem))
end

