-- ==== Sys2Proof/Laws/Decode.lean ====
section
/-! SUPPORT. The small lemmas of the decoder and the encoder: header fields, registers, records, lengths. -/

namespace Sys2Proof

/-! ## Registers -/

@[simp] theorem resolveRegister_field (r : RegId) : resolveRegister r.field.toNat = .ok r := by
  cases r <;> rfl

theorem RegId.field_injective {a b : RegId} (h : a.field = b.field) : a = b := by
  have h2 := resolveRegister_field a
  rw [h, resolveRegister_field] at h2
  exact (Except.ok.inj h2).symm

/-- A 3-bit field always names a register (10_state.md R23). -/
theorem exists_field (b : BitVec 3) : ∃ r : RegId, r.field = b := by
  have h : ∀ b : BitVec 3, b = 0 ∨ b = 1 ∨ b = 2 ∨ b = 3 ∨ b = 4 ∨ b = 5 ∨ b = 6 ∨ b = 7 := by decide
  rcases h b with h | h | h | h | h | h | h | h <;> subst h
  exacts [⟨.r0, rfl⟩, ⟨.r1, rfl⟩, ⟨.r2, rfl⟩, ⟨.r3, rfl⟩, ⟨.r4, rfl⟩, ⟨.r5, rfl⟩, ⟨.r6, rfl⟩, ⟨.r7, rfl⟩]

/-! ## Refused raw values (30_encoding.md R70) -/

theorem Config.refusesRaw_iff {c : Config} {raw : BitVec 6} :
    c.refusesRaw raw = true ↔ (∃ op, c.resolveOpcode raw = .unlisted op) ∧ c.unlistedPolicy = .refuse := by
  unfold Config.refusesRaw
  cases c.resolveOpcode raw <;> simp

/-! ## The header word (30_encoding.md R61, R76) -/

theorem flagAt_bit (b : Bool) (k i : Nat) :
    (flagAt b k).getLsbD i = (b && decide (i = k) && decide (i < 16)) := by
  unfold flagAt
  simp only [BitVec.getLsbD_shiftLeft, BitVec.getLsbD_setWidth, BitVec.getLsbD_ofBool]
  by_cases h : i = k
  · subst h; simp [Bool.and_comm]
  · by_cases h2 : i < k
    · simp [h2, h]
    · have : i - k ≠ 0 := by omega
      simp [h, this]

variable (raw : BitVec 6) (m6 m7 : Bool) (ra : RegId) (i1 : Bool) (rb : RegId) (i2 : Bool)

/-- Every bit of an encoded header. -/
theorem encodeHeader_bit (i : Nat) :
    (encodeHeader raw m6 m7 ra i1 rb i2).getLsbD i =
      (decide (i < 16) && (raw.getLsbD i || (m6 && decide (i = 6)) || (m7 && decide (i = 7)) ||
        (decide (8 ≤ i) && ra.field.getLsbD (i - 8)) || (i1 && decide (i = 11)) ||
        (decide (12 ≤ i) && rb.field.getLsbD (i - 12)) || (i2 && decide (i = 15)))) := by
  unfold encodeHeader
  simp only [BitVec.getLsbD_or, flagAt_bit, BitVec.getLsbD_shiftLeft, BitVec.getLsbD_setWidth]
  by_cases h : i < 16
  · interval_cases i <;> simp
  · simp [h]

@[simp] theorem headerRaw_encodeHeader : headerRaw (encodeHeader raw m6 m7 ra i1 rb i2) = raw := by
  apply BitVec.eq_of_getLsbD_eq
  intro i hi
  simp only [headerRaw, BitVec.getLsbD_extractLsb', encodeHeader_bit, hi, Nat.zero_add]
  interval_cases i <;> simp

@[simp] theorem headerOp1_encodeHeader : headerOp1 (encodeHeader raw m6 m7 ra i1 rb i2) = ra.field := by
  apply BitVec.eq_of_getLsbD_eq
  intro i hi
  simp only [headerOp1, BitVec.getLsbD_extractLsb', encodeHeader_bit, hi]
  interval_cases i <;> simp

@[simp] theorem headerOp2_encodeHeader : headerOp2 (encodeHeader raw m6 m7 ra i1 rb i2) = rb.field := by
  apply BitVec.eq_of_getLsbD_eq
  intro i hi
  simp only [headerOp2, BitVec.getLsbD_extractLsb', encodeHeader_bit, hi]
  interval_cases i <;> simp

@[simp] theorem headerM6_encodeHeader : headerM6 (encodeHeader raw m6 m7 ra i1 rb i2) = m6 := by
  rw [headerM6, encodeHeader_bit]
  simp

@[simp] theorem headerM7_encodeHeader : headerM7 (encodeHeader raw m6 m7 ra i1 rb i2) = m7 := by
  rw [headerM7, encodeHeader_bit]
  simp

@[simp] theorem headerInd1_encodeHeader : headerInd1 (encodeHeader raw m6 m7 ra i1 rb i2) = i1 := by
  rw [headerInd1, encodeHeader_bit]
  simp

@[simp] theorem headerInd2_encodeHeader : headerInd2 (encodeHeader raw m6 m7 ra i1 rb i2) = i2 := by
  rw [headerInd2, encodeHeader_bit]
  simp

/-- A header is the encoding of its fields (30_encoding.md R76). -/
theorem encodeHeader_fields (h : BitVec 16) (ha : ra.field = headerOp1 h) (hb : rb.field = headerOp2 h) :
    encodeHeader (headerRaw h) (headerM6 h) (headerM7 h) ra (headerInd1 h) rb (headerInd2 h) = h := by
  apply BitVec.eq_of_getLsbD_eq
  intro i hi
  rw [encodeHeader_bit, ha, hb]
  simp only [headerRaw, headerM6, headerM7, headerOp1, headerOp2, headerInd1, headerInd2, BitVec.getLsbD_extractLsb']
  interval_cases i <;> simp

theorem toNat_headerWord (b0 b1 : Byte) : (headerWord b0 b1).toNat = b0.toNat + 256 * b1.toNat := by
  have h0 := b0.isLt
  rw [headerWord, BitVec.toNat_append, ← Nat.shiftLeft_add_eq_or_of_lt h0, Nat.shiftLeft_eq]
  omega

/-- The two bytes of a header word, and the word of two bytes (30_encoding.md R60). -/
@[simp] theorem leBytes_headerWord (b0 b1 : Byte) : leBytes 2 (headerWord b0 b1).toNat = [b0, b1] := by
  have h : (headerWord b0 b1).toNat = leNat [b0, b1] := by simp [toNat_headerWord, leNat]
  rw [h]
  exact leBytes_leNat [b0, b1]

theorem headerWord_leBytes (h : BitVec 16) :
    ∃ b0 b1, leBytes 2 h.toNat = [b0, b1] ∧ headerWord b0 b1 = h := by
  refine ⟨_, _, rfl, ?_⟩
  apply BitVec.eq_of_toNat_eq
  have := h.isLt
  rw [toNat_headerWord]
  simp only [BitVec.toNat_ofNat]
  omega

/-- The first byte fixes the raw opcode and the two modifier bits (30_encoding.md R64, R65, R75). -/
theorem headerRaw_headerWord (b0 b1 : Byte) : headerRaw (headerWord b0 b1) = b0.setWidth 6 := by
  apply BitVec.eq_of_toNat_eq
  simp only [headerRaw, BitVec.extractLsb'_toNat, toNat_headerWord, BitVec.toNat_setWidth, Nat.shiftRight_zero]
  omega

theorem headerM6_headerWord (b0 b1 : Byte) : headerM6 (headerWord b0 b1) = b0.getLsbD 6 := by
  rw [headerM6, headerWord, BitVec.getLsbD_append]
  rfl

theorem headerM7_headerWord (b0 b1 : Byte) : headerM7 (headerWord b0 b1) = b0.getLsbD 7 := by
  rw [headerM7, headerWord, BitVec.getLsbD_append]
  rfl

/-! ## Records -/

@[simp] theorem GenericOp.record_instr (op : GenericOp) (r : GenericRec) : (op.instr r).record = .generic op r := by
  cases op <;> rfl

@[simp] theorem MovOp.record_instr (op : MovOp) (r : MovRec) : (op.instr r).record = .mov op r := by
  cases op <;> rfl

@[simp] theorem UnlistedOp.record_instr (op : UnlistedOp) (r : GenericRec) : (op.instr r).record = .unlisted op r := by
  cases op <;> rfl

/-- An instruction is the one its record stands for. -/
@[simp] theorem Instr.instr_record (i : Instr) : i.record.instr = i := by
  cases i <;> rfl

/-- Two instructions with one record are one. -/
theorem Instr.eq_of_record {i : Instr} {r : Record} (h : i.record = r) : i = r.instr := by
  rw [← h, Instr.instr_record]

/-! ## Lengths (30_encoding.md R75) -/

theorem MovOp.idxLen_mem (op : MovOp) : op.idxLen = 2 ∨ op.idxLen = 4 ∨ op.idxLen = 8 := by
  cases op <;> simp [MovOp.idxLen]

theorem MovOp.idxLen_le (op : MovOp) : op.idxLen ≤ 8 := by
  cases op <;> decide

theorem MovOp.opLen_le (op : MovOp) : op.opLen ≤ 8 := by
  cases op <;> decide

theorem genericLen_bounds (b : Bool) : 2 ≤ genericLen b ∧ genericLen b ≤ 4 := by
  cases b <;> simp [genericLen]

theorem movLen_bounds (op : MovOp) (f1 f2 : Bool) : 2 ≤ movLen op.idxLen f1 f2 ∧ movLen op.idxLen f1 f2 ≤ maxLength := by
  cases op <;> cases f1 <;> cases f2 <;> decide

/-- The shortest instruction is 2 bytes and the longest 18. -/
theorem Instr.length_bounds (i : Instr) : 2 ≤ i.length ∧ i.length ≤ maxLength := by
  unfold Instr.length maxLength
  split
  · next r _ => have := genericLen_bounds r.isImm; omega
  · exact movLen_bounds _ _ _
  · next r _ => have := genericLen_bounds r.isImm; omega

@[simp] theorem length_encodeGeneric (r : GenericRec) : (encodeGeneric r).length = genericLen r.isImm := by
  unfold encodeGeneric genericLen
  cases r.isImm <;> simp

@[simp] theorem length_encodeMov (L : Nat) (r : MovRec) :
    (encodeMov L r).length = movLen L r.isOp1Idx r.isOp2Idx := by
  unfold encodeMov movLen
  cases r.isOp1Idx <;> cases r.isOp2Idx <;> simp
  omega

/-- The encoder writes as many bytes as R75 says. -/
theorem length_encode (i : Instr) : (encode i).length = i.length := by
  unfold encode Instr.length
  split <;> simp

end Sys2Proof
end

