-- ==== Sys2Proof/Laws/Memory.lean ====
section
/-! SUPPORT. The memory laws: every operation keeps the canonical form (log entry 4), a read after a write. -/

namespace Sys2Proof.Machine

theorem Memory.wfAbove_weaken {a b : Nat} (h : b ≤ a) {m : Memory} (hm : Memory.wfAbove a m = true) :
    Memory.wfAbove b m = true := by
  cases m with
  | nil => rfl
  | cons c m =>
    simp only [Memory.wfAbove, Bool.and_eq_true, decide_eq_true_eq] at hm ⊢
    exact ⟨⟨by omega, hm.1.2⟩, hm.2⟩

theorem Memory.wf_of_wfAbove {a : Nat} {m : Memory} (hm : Memory.wfAbove a m = true) : Memory.wf m = true := by
  cases m with
  | nil => rfl
  | cons c m =>
    simp only [Memory.wfAbove, Memory.wf, Bool.and_eq_true] at hm ⊢
    exact ⟨hm.1.2, hm.2⟩

/-- Below the first listed address nothing is listed. -/
theorem Memory.read_of_wfAbove {a k : Nat} (h : k ≤ a) {m : Memory} (hm : Memory.wfAbove a m = true) :
    Memory.read m k = Memory.unlisted := by
  induction m generalizing a with
  | nil => rfl
  | cons c m ih =>
    obtain ⟨k', v⟩ := c
    simp only [Memory.wfAbove, Bool.and_eq_true, decide_eq_true_eq] at hm
    rw [Memory.read, if_neg (by omega)]
    exact ih (by omega) hm.2

theorem Memory.wfAbove_write {a k : Nat} (h : a < k) (b : Byte) {m : Memory} (hm : Memory.wfAbove a m = true) :
    Memory.wfAbove a (Memory.write m k b) = true := by
  induction m generalizing a with
  | nil =>
    unfold Memory.write
    split <;> simp_all [Memory.wfAbove]
  | cons c m ih =>
    obtain ⟨k', v⟩ := c
    simp only [Memory.wfAbove, Bool.and_eq_true, decide_eq_true_eq] at hm
    unfold Memory.write
    split
    · split <;> simp_all [Memory.wfAbove]
    · split
      · split
        · exact Memory.wfAbove_weaken (by omega) hm.2
        · simp_all [Memory.wfAbove]
      · simp only [Memory.wfAbove, Bool.and_eq_true, decide_eq_true_eq]
        exact ⟨hm.1, ih (by omega) hm.2⟩

/-- A write keeps the canonical form. -/
theorem Memory.wf_write (k : Nat) (b : Byte) {m : Memory} (hm : Memory.wf m = true) :
    Memory.wf (Memory.write m k b) = true := by
  cases m with
  | nil =>
    unfold Memory.write
    split <;> simp_all [Memory.wf, Memory.wfAbove]
  | cons c m =>
    obtain ⟨k', v⟩ := c
    simp only [Memory.wf, Bool.and_eq_true] at hm
    unfold Memory.write
    split
    · split <;> simp_all [Memory.wf, Memory.wfAbove]
    · split
      · split
        · exact Memory.wf_of_wfAbove hm.2
        · simp_all [Memory.wf]
      · simp only [Memory.wf, Bool.and_eq_true]
        exact ⟨hm.1, Memory.wfAbove_write (by omega) b hm.2⟩

theorem Memory.read_write_of_wfAbove {a : Nat} (k j : Nat) (b : Byte) {m : Memory} (hm : Memory.wfAbove a m = true) :
    Memory.read (Memory.write m k b) j = if j = k then b else Memory.read m j := by
  induction m generalizing a with
  | nil =>
    unfold Memory.write
    split <;> simp_all [Memory.read]
  | cons c m ih =>
    obtain ⟨k', v⟩ := c
    simp only [Memory.wfAbove, Bool.and_eq_true, decide_eq_true_eq] at hm
    unfold Memory.write
    split
    · next hlt =>
      split
      · next hb =>
        split
        · next hj =>
          rw [hb, Memory.read, if_neg (by omega)]
          exact Memory.read_of_wfAbove (by omega) hm.2
        · rfl
      · simp [Memory.read]
    · split
      · next hk =>
        subst hk
        split
        · next hb =>
          split
          · next hj => rw [hb]; exact Memory.read_of_wfAbove (by omega) hm.2
          · next hj => simp [Memory.read, hj]
        · simp only [Memory.read]
          split <;> simp_all
      · next hk =>
        simp only [Memory.read]
        rw [ih hm.2]
        split <;> simp_all
        intro h
        omega

/-- A read after a write of one byte (20_memory.md R47). -/
theorem Memory.read_write (k j : Nat) (b : Byte) {m : Memory} (hm : Memory.wf m = true) :
    Memory.read (Memory.write m k b) j = if j = k then b else Memory.read m j := by
  cases m with
  | nil =>
    unfold Memory.write
    split <;> simp_all [Memory.read]
  | cons c m =>
    obtain ⟨k', v⟩ := c
    simp only [Memory.wf, Bool.and_eq_true] at hm
    cases k' with
    | succ a => exact Memory.read_write_of_wfAbove (a := a) k j b (by simp [Memory.wfAbove, hm.1, hm.2])
    | zero =>
      unfold Memory.write
      rw [if_neg (by omega)]
      split
      · next hk =>
        subst hk
        split
        · next hb =>
          split
          · next hj => rw [hb, hj]; exact Memory.read_of_wfAbove (Nat.le_refl 0) hm.2
          · next hj => simp [Memory.read, hj]
        · simp only [Memory.read]
          split <;> simp_all
      · next hk =>
        simp only [Memory.read]
        rw [Memory.read_write_of_wfAbove k j b hm.2]
        split <;> simp_all
        intro h
        omega

/-- Writing bytes keeps the canonical form. -/
theorem Memory.wf_writeBytes (bs : List Byte) (a : Nat) {m : Memory} (hm : Memory.wf m = true) :
    Memory.wf (Memory.writeBytes m a bs) = true := by
  induction bs generalizing a m with
  | nil => exact hm
  | cons b bs ih => exact ih (a + 1) (Memory.wf_write a b hm)

/-- A read of one byte after a write of several (20_memory.md R43, R47). -/
theorem Memory.read_writeBytes (bs : List Byte) (a j : Nat) {m : Memory} (hm : Memory.wf m = true) :
    Memory.read (Memory.writeBytes m a bs) j =
      if h : a ≤ j ∧ j - a < bs.length then bs[j - a]'h.2 else Memory.read m j := by
  induction bs generalizing a m with
  | nil => simp [Memory.writeBytes]
  | cons b bs ih =>
    rw [Memory.writeBytes, ih (a + 1) (Memory.wf_write a b hm)]
    by_cases h1 : a + 1 ≤ j ∧ j - (a + 1) < bs.length
    · rw [dif_pos h1, dif_pos ⟨by omega, by simp; omega⟩]
      have hj : j - a = (j - (a + 1)) + 1 := by omega
      simp only [hj, List.getElem_cons_succ]
    · rw [dif_neg h1, Memory.read_write a j b hm]
      by_cases hj : j = a
      · subst hj
        simp
      · rw [if_neg hj, dif_neg]
        simp only [List.length_cons]
        omega

/-- Outside the bytes written nothing changes (20_memory.md R43). -/
theorem Memory.read_writeBytes_outside (bs : List Byte) (a j : Nat) {m : Memory} (hm : Memory.wf m = true)
    (h : j < a ∨ a + bs.length ≤ j) : Memory.read (Memory.writeBytes m a bs) j = Memory.read m j := by
  rw [Memory.read_writeBytes bs a j hm, dif_neg (by omega)]

@[simp] theorem Memory.length_bytes (m : Memory) (a n : Nat) : (Memory.bytes m a n).length = n := by
  induction n generalizing a with
  | zero => rfl
  | succ n ih => simp [Memory.bytes, ih]

@[simp] theorem Memory.getElem_bytes (m : Memory) (a n k : Nat) (h : k < (Memory.bytes m a n).length) :
    (Memory.bytes m a n)[k] = Memory.read m (a + k) := by
  induction n generalizing a k with
  | zero => simp at h
  | succ n ih =>
    cases k with
    | zero => rfl
    | succ k =>
      simp only [Memory.bytes, List.getElem_cons_succ]
      rw [ih]
      congr 1
      omega

/-- Two memories that agree on `n` bytes from `a` on give the same bytes. -/
theorem Memory.bytes_congr {m m' : Memory} {a n : Nat} (h : ∀ k < n, Memory.read m (a + k) = Memory.read m' (a + k)) :
    Memory.bytes m a n = Memory.bytes m' a n := by
  apply List.ext_getElem (by simp)
  intro k h1 h2
  simp only [Memory.getElem_bytes]
  exact h k (by simpa using h1)

/-! ## Staying inside the region -/

theorem Memory.inside_write {c : Config} {k : Nat} (hk : k < c.memSize) (b : Byte) {m : Memory}
    (hm : Memory.inside c m = true) : Memory.inside c (Memory.write m k b) = true := by
  induction m with
  | nil =>
    unfold Memory.write
    split <;> simp_all [Memory.inside]
  | cons x m ih =>
    obtain ⟨k', v⟩ := x
    obtain ⟨hx, hm⟩ : decide (k' < c.memSize) = true ∧ Memory.inside c m = true := by
      simpa only [Memory.inside, List.all_cons, Bool.and_eq_true] using hm
    have cons {j : Nat} {w : Byte} {m' : Memory} (hj : decide (j < c.memSize) = true)
        (h : Memory.inside c m' = true) : Memory.inside c ((j, w) :: m') = true := by
      simp only [Memory.inside, List.all_cons, Bool.and_eq_true] at h ⊢
      exact ⟨hj, h⟩
    unfold Memory.write
    split
    · split
      · exact cons hx hm
      · exact cons (decide_eq_true hk) (cons hx hm)
    · split
      · split
        · exact hm
        · exact cons hx hm
      · exact cons hx (ih hm)

/-- Writing bytes inside the region keeps every listed address inside it. -/
theorem Memory.inside_writeBytes {c : Config} (bs : List Byte) {a : Nat} (ha : a + bs.length ≤ c.memSize) {m : Memory}
    (hm : Memory.inside c m = true) : Memory.inside c (Memory.writeBytes m a bs) = true := by
  induction bs generalizing a m with
  | nil => exact hm
  | cons b bs ih =>
    simp only [List.length_cons] at ha
    exact ih (by omega) (Memory.inside_write (by omega) b hm)

/-- Loading an image keeps the canonical form. -/
theorem Memory.wf_load (c : Config) (image : List Host.Cell) {m : Memory} (hm : Memory.wf m = true) :
    Memory.wf (Memory.load c m image) = true := by
  induction image generalizing m with
  | nil => exact hm
  | cons x image ih =>
    obtain ⟨a, b⟩ := x
    rw [Memory.load]
    apply ih
    split
    · exact Memory.wf_write a b hm
    · exact hm

/-- A byte after an image is loaded: each cell for that address replaces what stood there, if the region has the address. -/
theorem Memory.read_load (c : Config) (image : List Host.Cell) (j : Nat) {m : Memory} (hm : Memory.wf m = true) :
    Memory.read (Memory.load c m image) j =
      image.foldl (fun b cell => if cell.1 = j ∧ j < c.memSize then cell.2 else b) (Memory.read m j) := by
  induction image generalizing m with
  | nil => rfl
  | cons x image ih =>
    obtain ⟨a, b⟩ := x
    rw [Memory.load, List.foldl_cons]
    by_cases ha : a < c.memSize
    · rw [if_pos ha, ih (Memory.wf_write a b hm), Memory.read_write a j b hm]
      congr 1
      by_cases hj : j = a
      · subst hj
        simp [ha]
      · simp [hj, Ne.symm hj]
    · rw [if_neg ha, ih hm]
      congr 1
      rw [if_neg (by simp only; omega)]

/-- Loading an image keeps every listed address inside the region. -/
theorem Memory.inside_load (c : Config) (image : List Host.Cell) {m : Memory} (hm : Memory.inside c m = true) :
    Memory.inside c (Memory.load c m image) = true := by
  induction image generalizing m with
  | nil => exact hm
  | cons x image ih =>
    obtain ⟨a, b⟩ := x
    rw [Memory.load]
    apply ih
    split
    · next h => exact Memory.inside_write h b hm
    · exact hm

end Sys2Proof.Machine
end

