-- ==== Sys2Proof/Laws/State.lean ====
section
/-! SUPPORT. The small lemmas of State: one per field per update, and reads of a register after a write. -/

namespace Sys2Proof.Machine

/-! ## The register file -/

@[simp] theorem RegFile.get_set_same (f : RegFile) (r : RegId) (v : Word) : (f.set r v).get r = v := by
  cases r <;> rfl

theorem RegFile.get_set_other (f : RegFile) {r q : RegId} (v : Word) (h : q ≠ r) : (f.set r v).get q = f.get q := by
  cases r <;> cases q <;> first | rfl | exact absurd rfl h

theorem RegFile.get_set (f : RegFile) (r q : RegId) (v : Word) :
    (f.set r v).get q = if q = r then v else f.get q := by
  split
  · next h => subst h; exact f.get_set_same q v
  · next h => exact f.get_set_other v h

/-! ## setReg -/

variable (s : State)

@[simp] theorem State.setReg_cfg (r : RegId) (v : Word) : (s.setReg r v).cfg = s.cfg := rfl
@[simp] theorem State.setReg_regs (r : RegId) (v : Word) : (s.setReg r v).regs = s.regs.set r v := rfl
@[simp] theorem State.setReg_mem (r : RegId) (v : Word) : (s.setReg r v).mem = s.mem := rfl
@[simp] theorem State.setReg_pc (r : RegId) (v : Word) : (s.setReg r v).pc = s.pc := rfl
@[simp] theorem State.setReg_halted (r : RegId) (v : Word) : (s.setReg r v).halted = s.halted := rfl
@[simp] theorem State.setReg_error (r : RegId) (v : Word) : (s.setReg r v).error = s.error := rfl
@[simp] theorem State.setReg_refused (r : RegId) (v : Word) : (s.setReg r v).refused = s.refused := rfl
@[simp] theorem State.reg_setReg (r q : RegId) (v : Word) :
    (s.setReg r v).reg q = if q = r then v else s.reg q := RegFile.get_set s.regs r q v

/-! ## store -/

@[simp] theorem State.store_cfg (a : Word) (n v : Nat) : (s.store a n v).cfg = s.cfg := rfl
@[simp] theorem State.store_regs (a : Word) (n v : Nat) : (s.store a n v).regs = s.regs := rfl
@[simp] theorem State.store_mem (a : Word) (n v : Nat) :
    (s.store a n v).mem = Memory.writeBytes s.mem a.toNat (leBytes n v) := rfl
@[simp] theorem State.store_pc (a : Word) (n v : Nat) : (s.store a n v).pc = s.pc := rfl
@[simp] theorem State.store_halted (a : Word) (n v : Nat) : (s.store a n v).halted = s.halted := rfl
@[simp] theorem State.store_error (a : Word) (n v : Nat) : (s.store a n v).error = s.error := rfl
@[simp] theorem State.store_refused (a : Word) (n v : Nat) : (s.store a n v).refused = s.refused := rfl
@[simp] theorem State.reg_store (a : Word) (n v : Nat) (q : RegId) : (s.store a n v).reg q = s.reg q := rfl

/-! ## takeError, takeRefusal, halt -/

@[simp] theorem State.takeError_cfg (e : ErrorKind) : (s.takeError e).cfg = s.cfg := rfl
@[simp] theorem State.takeError_regs (e : ErrorKind) : (s.takeError e).regs = s.regs := rfl
@[simp] theorem State.takeError_mem (e : ErrorKind) : (s.takeError e).mem = s.mem := rfl
@[simp] theorem State.takeError_pc (e : ErrorKind) : (s.takeError e).pc = s.pc := rfl
@[simp] theorem State.takeError_halted (e : ErrorKind) : (s.takeError e).halted = s.halted := rfl
@[simp] theorem State.takeError_error (e : ErrorKind) : (s.takeError e).error = some e := rfl
@[simp] theorem State.takeError_refused (e : ErrorKind) : (s.takeError e).refused = s.refused := rfl
@[simp] theorem State.reg_takeError (e : ErrorKind) (q : RegId) : (s.takeError e).reg q = s.reg q := rfl
@[simp] theorem State.takeError_stopped (e : ErrorKind) : (s.takeError e).stopped = true := by simp [State.stopped]

@[simp] theorem State.takeRefusal_cfg (r : RefuseReason) : (s.takeRefusal r).cfg = s.cfg := rfl
@[simp] theorem State.takeRefusal_regs (r : RefuseReason) : (s.takeRefusal r).regs = s.regs := rfl
@[simp] theorem State.takeRefusal_mem (r : RefuseReason) : (s.takeRefusal r).mem = s.mem := rfl
@[simp] theorem State.takeRefusal_pc (r : RefuseReason) : (s.takeRefusal r).pc = s.pc := rfl
@[simp] theorem State.takeRefusal_halted (r : RefuseReason) : (s.takeRefusal r).halted = s.halted := rfl
@[simp] theorem State.takeRefusal_error (r : RefuseReason) : (s.takeRefusal r).error = s.error := rfl
@[simp] theorem State.takeRefusal_refused (r : RefuseReason) : (s.takeRefusal r).refused = some r := rfl
@[simp] theorem State.reg_takeRefusal (r : RefuseReason) (q : RegId) : (s.takeRefusal r).reg q = s.reg q := rfl
@[simp] theorem State.takeRefusal_stopped (r : RefuseReason) : (s.takeRefusal r).stopped = true := by
  simp [State.stopped]

@[simp] theorem State.halt_cfg : s.halt.cfg = s.cfg := rfl
@[simp] theorem State.halt_regs : s.halt.regs = s.regs := rfl
@[simp] theorem State.halt_mem : s.halt.mem = s.mem := rfl
@[simp] theorem State.halt_pc : s.halt.pc = s.pc := rfl
@[simp] theorem State.halt_halted : s.halt.halted = true := rfl
@[simp] theorem State.halt_error : s.halt.error = s.error := rfl
@[simp] theorem State.halt_refused : s.halt.refused = s.refused := rfl
@[simp] theorem State.halt_stopped : s.halt.stopped = true := by simp [State.stopped]

/-! ## advance -/

@[simp] theorem State.advance_cfg (n : Nat) : (s.advance n).cfg = s.cfg := rfl
@[simp] theorem State.advance_regs (n : Nat) : (s.advance n).regs = s.regs := rfl
@[simp] theorem State.advance_mem (n : Nat) : (s.advance n).mem = s.mem := rfl
@[simp] theorem State.advance_pc (n : Nat) : (s.advance n).pc = s.pc + BitVec.ofNat 64 n := rfl
@[simp] theorem State.advance_halted (n : Nat) : (s.advance n).halted = s.halted := rfl
@[simp] theorem State.advance_error (n : Nat) : (s.advance n).error = s.error := rfl
@[simp] theorem State.advance_refused (n : Nat) : (s.advance n).refused = s.refused := rfl

/-! ## Run control -/

theorem State.stopped_iff : s.stopped = true ↔ ¬ s.Running := by
  cases h : s.halted <;> cases he : s.error <;> cases hr : s.refused <;> simp [State.stopped, State.Running, h, he, hr]

theorem State.stopped_eq_false : s.stopped = false ↔ s.Running := by
  rw [← Bool.not_eq_true, State.stopped_iff, not_not]

/-- A running state has a step. -/
theorem State.noStep_of_running {s : State} (h : s.Running) : s.noStep = none := by
  obtain ⟨hh, he, hr⟩ := h
  simp [State.noStep, hh, he, hr]

theorem State.noStep_eq_none : s.noStep = none ↔ s.Running := by
  cases h : s.halted <;> cases he : s.error <;> cases hr : s.refused <;> simp [State.noStep, State.Running, h, he, hr]

end Sys2Proof.Machine
end

