-- ==== Sys2Proof/Laws/Operands.lean ====
section
/-! SUPPORT. What the shared operations can do, said once: accesses, operand forms, the execution sequences of the ALU, PUSH and
the MOV family, and how an instruction ends. Proofs about instructions cite these and unfold none of the operations. -/

namespace Sys2Proof.Machine

/-! ## Accesses -/

theorem outOfBounds_eq_false {s : State} {a : Word} {n : Nat} : outOfBounds s.cfg a n = false ↔ InBounds s a n := by
  simp [outOfBounds, InBounds]

theorem memRead_inBounds {s : State} {a : Word} {n : Nat} (h : InBounds s a n) :
    memRead s a n = .ok (BitVec.ofNat 64 (s.load a n)) := by
  rw [memRead, outOfBounds_eq_false.mpr h]
  rfl

theorem memRead_outOfBounds {s : State} {a : Word} {n : Nat} (h : ¬ InBounds s a n) :
    memRead s a n = .error (.error .outOfBounds) := by
  rw [memRead, if_pos (by simpa [outOfBounds, InBounds] using h)]

theorem memWrite_inBounds {s : State} {a : Word} {n : Nat} (h : InBounds s a n) (v : Word) :
    memWrite s a n v = .ok (s.store a n v.toNat) := by
  rw [memWrite, outOfBounds_eq_false.mpr h]
  rfl

theorem memWrite_outOfBounds {s : State} {a : Word} {n : Nat} (h : ¬ InBounds s a n) (v : Word) :
    memWrite s a n v = .error (.error .outOfBounds) := by
  rw [memWrite, if_pos (by simpa [outOfBounds, InBounds] using h)]

/-- A loaded number has `n` bytes. -/
theorem load_lt (s : State) (a : Word) (n : Nat) : s.load a n < 2 ^ (8 * n) := by
  have h := leNat_lt (Memory.bytes s.mem a.toNat n)
  rwa [Memory.length_bytes, show 256 = 2 ^ 8 from rfl, ← Nat.pow_mul] at h

/-- Storing keeps the canonical form. -/
theorem store_wf {s : State} (h : Memory.wf s.mem = true) (a : Word) (n v : Nat) :
    Memory.wf (s.store a n v).mem = true := Memory.wf_writeBytes _ _ h

/-- Storing in bounds stays inside the region. -/
theorem store_inside {s : State} (h : Memory.inside s.cfg s.mem = true) {a : Word} {n : Nat} (hb : InBounds s a n) (v : Nat) :
    Memory.inside s.cfg (s.store a n v).mem = true :=
  Memory.inside_writeBytes _ (by simpa [InBounds] using hb) h

/-- Outside the stored bytes nothing changes. -/
theorem read_store_outside {s : State} (h : Memory.wf s.mem = true) {a : Word} {n v j : Nat}
    (hj : j < a.toNat ∨ a.toNat + n ≤ j) : Memory.read (s.store a n v).mem j = Memory.read s.mem j :=
  Memory.read_writeBytes_outside _ _ _ h (by simpa using hj)

/-! ## Widths -/

/-- The operation width is 32 or 64 (41_alu.md R120). -/
theorem opWidth_cases (r : GenericRec) : opWidth r = 32 ∨ opWidth r = 64 := by
  unfold opWidth
  split <;> simp

theorem setWidth_ofNat_load (s : State) (a : Word) (r : GenericRec) :
    (BitVec.ofNat 64 (s.load a (opWidth r / 8))).setWidth (opWidth r) = BitVec.ofNat _ (s.load a (opWidth r / 8)) := by
  have h := load_lt s a (opWidth r / 8)
  apply BitVec.eq_of_toNat_eq
  rcases opWidth_cases r with hw | hw <;> simp only [hw, BitVec.toNat_setWidth, BitVec.toNat_ofNat] at h ⊢ <;> omega

theorem immediate_setWidth (r : GenericRec) :
    (immediate r).setWidth (opWidth r) = BitVec.ofNat _ (r.imm.toNat % 2 ^ 16) := by
  apply BitVec.eq_of_toNat_eq
  have := r.imm.isLt
  rcases opWidth_cases r with hw | hw <;>
    simp only [hw, immediate, zext, BitVec.toNat_setWidth, BitVec.toNat_ofNat] <;> omega

theorem toNat_setWidth_opWidth (r : GenericRec) (v : BitVec (opWidth r)) : (v.setWidth 64).toNat = v.toNat := by
  have := v.isLt
  rw [BitVec.toNat_setWidth]
  apply Nat.mod_eq_of_lt
  have hw : opWidth r ≤ 64 := by rcases opWidth_cases r with hw | hw <;> omega
  exact lt_of_lt_of_le this (Nat.pow_le_pow_right (by omega) hw)

/-- A store of an operation-width value in bounds. -/
theorem memWrite_opWidth {s : State} {a : Word} {n : Nat} (h : InBounds s a n) (r : GenericRec) (v : BitVec (opWidth r)) :
    memWrite s a n (v.setWidth 64) = .ok (s.store a n v.toNat) := by
  rw [memWrite_inBounds h, toNat_setWidth_opWidth]

/-! ## Operand forms (40_execution_control.md R102, R104) -/

variable {s : State} {r : GenericRec}

theorem slotValue_ready {op : RegId} {ind : Bool} (h : SlotReady s r op ind) :
    slotValue s r op ind (opWidth r) = .ok (slotWord s r op ind) := by
  unfold slotValue slotWord
  cases ind with
  | true => simp [memRead_inBounds (h rfl), Except.map, setWidth_ofNat_load]
  | false =>
    cases hi : r.isImm with
    | true => simp [immediate_setWidth]
    | false => simp

theorem slotValue_not_ready {op : RegId} {ind : Bool} (h : ¬ SlotReady s r op ind) :
    slotValue s r op ind (opWidth r) = .error (.error .outOfBounds) := by
  obtain ⟨hi, hb⟩ := Classical.not_imp.mp h
  simp [slotValue, hi, memRead_outOfBounds hb, Except.map]

theorem op1Value_ready (h : Op1Ready s r) : op1Value s r (opWidth r) = .ok (op1Word s r) := by
  unfold op1Value op1Word
  cases hi : r.op1Indirect with
  | true => simp [memRead_inBounds (h hi), Except.map, setWidth_ofNat_load]
  | false => simp

theorem op1Value_not_ready (h : ¬ Op1Ready s r) : op1Value s r (opWidth r) = .error (.error .outOfBounds) := by
  obtain ⟨hi, hb⟩ := Classical.not_imp.mp h
  simp [op1Value, hi, memRead_outOfBounds hb, Except.map]

theorem op1Write_ready (h : Op1Ready s r) (v : BitVec (opWidth r)) : op1Write s r v = .ok (op1Result s r v) := by
  unfold op1Write op1Result
  cases hi : r.op1Indirect with
  | true => simp only [if_true, memWrite_opWidth (h hi)]
  | false => simp

theorem op1Write_not_ready (h : ¬ Op1Ready s r) (v : BitVec (opWidth r)) :
    op1Write s r v = .error (.error .outOfBounds) := by
  obtain ⟨hi, hb⟩ := Classical.not_imp.mp h
  simp [op1Write, hi, memWrite_outOfBounds hb]

/-! ## The ALU sequences (41_alu.md R121) -/

theorem unary_ready {f : (W : Nat) → BitVec W → BitVec W} (hs : SlotReady s r r.operand2 r.op2Indirect)
    (h1 : Op1Ready s r) :
    unary f r s = .ok (op1Result s r (f (opWidth r) (slotWord s r r.operand2 r.op2Indirect))) := by
  simp [unary, slotValue_ready hs, op1Write_ready h1, bind, Except.bind]

theorem unary_not_ready {f : (W : Nat) → BitVec W → BitVec W}
    (h : ¬ SlotReady s r r.operand2 r.op2Indirect ∨ ¬ Op1Ready s r) :
    unary f r s = .error (.error .outOfBounds) := by
  by_cases hs : SlotReady s r r.operand2 r.op2Indirect
  · have h1 : ¬ Op1Ready s r := h.resolve_left (not_not_intro hs)
    simp [unary, slotValue_ready hs, op1Write_not_ready h1, bind, Except.bind]
  · simp [unary, slotValue_not_ready hs, bind, Except.bind]

theorem binary_ready {f : (W : Nat) → BitVec W → BitVec W → Except Stop (BitVec W)}
    (hs : SlotReady s r r.operand2 r.op2Indirect) (h1 : Op1Ready s r) :
    binary f r s = (f (opWidth r) (op1Word s r) (slotWord s r r.operand2 r.op2Indirect)).map (op1Result s r) := by
  simp only [binary, slotValue_ready hs, op1Value_ready h1, bind, Except.bind]
  cases f (opWidth r) (op1Word s r) (slotWord s r r.operand2 r.op2Indirect) with
  | error e => rfl
  | ok v => simp [op1Write_ready h1, Except.map]

theorem binary_not_ready {f : (W : Nat) → BitVec W → BitVec W → Except Stop (BitVec W)}
    (h : ¬ SlotReady s r r.operand2 r.op2Indirect ∨ ¬ Op1Ready s r) :
    binary f r s = .error (.error .outOfBounds) := by
  by_cases hs : SlotReady s r r.operand2 r.op2Indirect
  · have h1 : ¬ Op1Ready s r := h.resolve_left (not_not_intro hs)
    simp [binary, slotValue_ready hs, op1Value_not_ready h1, bind, Except.bind]
  · simp [binary, slotValue_not_ready hs, bind, Except.bind]

/-! ## PUSH (42_push.md R150) -/

/-- The state after a PUSH that completes. -/
theorem push_ready (h0 : r.operand1 ≠ .r0) (hs : SlotReady s r r.operand1 r.op1Indirect)
    (hb : InBounds s (pushAddress r s) (opWidth r / 8)) :
    push r s = .ok ((s.store (pushAddress r s) (opWidth r / 8) (slotWord s r r.operand1 r.op1Indirect).toNat).setReg
      .r0 (pushAddress r s)) := by
  simp only [push, h0, if_false, slotValue_ready hs, memWrite_opWidth hb, bind, Except.bind, pure, Except.pure]

theorem push_not_ready (h0 : r.operand1 ≠ .r0)
    (h : ¬ SlotReady s r r.operand1 r.op1Indirect ∨ ¬ InBounds s (pushAddress r s) (opWidth r / 8)) :
    push r s = .error (.error .outOfBounds) := by
  by_cases hs : SlotReady s r r.operand1 r.op1Indirect
  · have hb := h.resolve_left (not_not_intro hs)
    simp [push, h0, slotValue_ready hs, memWrite_outOfBounds hb, bind, Except.bind]
  · simp [push, h0, slotValue_not_ready hs, bind, Except.bind]

theorem push_r0 (h0 : r.operand1 = .r0) : push r s = .error (.refuse .pushOfStackPointer) := by
  simp [push, h0]

/-! ## The MOV family (43_mov.md R160) -/

variable {m : MovRec} {n L : Nat}

theorem movSource_ready (h : MovSourceReady s n L m) :
    movSource s n L m = .ok (BitVec.ofNat 64 (movNumber s n L m)) := by
  unfold movSource movNumber
  cases hi : m.op2Indirect with
  | true => simp [memRead_inBounds (h hi)]
  | false =>
    simp only [Bool.false_eq_true, if_false, zext]
    congr 1
    apply BitVec.eq_of_toNat_eq
    simp

theorem movSource_not_ready (h : ¬ MovSourceReady s n L m) : movSource s n L m = .error (.error .outOfBounds) := by
  obtain ⟨hi, hb⟩ := Classical.not_imp.mp h
  simp [movSource, hi, memRead_outOfBounds hb]

/-- The value moved has `n` bytes. -/
theorem movNumber_lt (s : State) (n L : Nat) (m : MovRec) : movNumber s n L m < 2 ^ (8 * n) := by
  unfold movNumber
  split
  · exact load_lt _ _ _
  · exact Nat.mod_lt _ (Nat.two_pow_pos _)

theorem movWrite_ready (h : MovDestReady s n L m) {v : Nat} (hv : v < 2 ^ 64) :
    movWrite s n L m (BitVec.ofNat 64 v) = .ok (movResult s n L m v) := by
  unfold movWrite movResult
  cases hi : m.op1Indirect with
  | true => rw [if_pos rfl, if_pos rfl, memWrite_inBounds (h hi), BitVec.toNat_ofNat, Nat.mod_eq_of_lt hv]
  | false => simp

theorem movWrite_not_ready (h : ¬ MovDestReady s n L m) (v : Word) :
    movWrite s n L m v = .error (.error .outOfBounds) := by
  obtain ⟨hi, hb⟩ := Classical.not_imp.mp h
  simp [movWrite, hi, memWrite_outOfBounds hb]

theorem indexOnDirect_eq_false :
    indexOnDirect m = false ↔
      (m.isOp1Idx = true → m.op1Indirect = true) ∧ (m.isOp2Idx = true → m.op2Indirect = true) := by
  unfold indexOnDirect
  cases m.isOp1Idx <;> cases m.op1Indirect <;> cases m.isOp2Idx <;> cases m.op2Indirect <;> simp

theorem mov_ready (hn : n ≤ 8) (hi : indexOnDirect m = false) (hs : MovSourceReady s n L m)
    (hd : MovDestReady s n L m) : mov n L m s = .ok (movResult s n L m (movNumber s n L m)) := by
  have hv : movNumber s n L m < 2 ^ 64 :=
    lt_of_lt_of_le (movNumber_lt s n L m) (Nat.pow_le_pow_right (by omega) (by omega))
  simp [mov, hi, movSource_ready hs, movWrite_ready hd hv, bind, Except.bind]

theorem mov_not_ready (hi : indexOnDirect m = false) (h : ¬ MovSourceReady s n L m ∨ ¬ MovDestReady s n L m) :
    mov n L m s = .error (.error .outOfBounds) := by
  by_cases hs : MovSourceReady s n L m
  · have hd := h.resolve_left (not_not_intro hs)
    simp [mov, hi, movSource_ready hs, movWrite_not_ready hd, bind, Except.bind]
  · simp [mov, hi, movSource_not_ready hs, bind, Except.bind]

theorem mov_index (hi : indexOnDirect m = true) : mov n L m s = .error (.refuse .indexOnDirectOperand) := by
  simp [mov, hi]

end Sys2Proof.Machine
end

