-- ==== Sys2Proof/Laws/Exec.lean ====
section
/-! SUPPORT. How `exec` and `step` can end, said once (40_execution_control.md R100, R101, R103). -/

namespace Sys2Proof.Machine

@[simp] theorem conclude_ok (s t : State) : conclude s (.ok t) = .next t := rfl
@[simp] theorem conclude_error (s : State) (e : ErrorKind) : conclude s (.error (.error e)) = .next (s.takeError e) := rfl
@[simp] theorem conclude_refuse (s : State) (r : RefuseReason) :
    conclude s (.error (.refuse r)) = .next (s.takeRefusal r) := rfl

/-- An instruction completes, takes an error or takes a refusal; the last two keep none of its writes. -/
theorem conclude_cases {s t : State} {x : Except Stop State} (h : conclude s x = .next t) :
    x = .ok t ∨ (∃ e, x = .error (.error e) ∧ t = s.takeError e) ∨
      (∃ r, x = .error (.refuse r) ∧ t = s.takeRefusal r) := by
  rcases x with (e | r) | u
  · exact .inr (.inl ⟨e, rfl, (Host.Outcome.next.inj h).symm⟩)
  · exact .inr (.inr ⟨r, rfl, (Host.Outcome.next.inj h).symm⟩)
  · exact .inl (congrArg _ (Host.Outcome.next.inj h))

theorem conclude_next (s : State) (x : Except Stop State) : ∃ t, conclude s x = .next t := by
  rcases x with (e | r) | u <;> exact ⟨_, rfl⟩

/-- What an instruction does before its outcome is concluded: `exec` in one form for every constructor. -/
def effect (i : Instr) (s : State) : Except Stop State :=
  match i.record with
  | .generic op r =>
    match op with
    | .nop => .ok s
    | .ret => .ok s.halt
    | .not => unary aluNot r s
    | .neg => unary aluNeg r s
    | .add => binary aluAdd r s
    | .sub => binary aluSub r s
    | .mul => binary aluMul r s
    | .mulu => binary aluMulu r s
    | .div => binary aluDiv r s
    | .divu => binary aluDivu r s
    | .mod => binary aluMod r s
    | .modu => binary aluModu r s
    | .and => binary aluAnd r s
    | .or => binary aluOr r s
    | .xor => binary aluXor r s
    | .shl => binary aluShl r s
    | .shr => binary (aluShr s.cfg.shrKind) r s
    | .push => push r s
  | .mov op r => mov op.opLen op.idxLen r s
  | .unlisted _ r => unlisted r s

/-- `exec` concludes the instruction's effect. -/
theorem exec_eq_conclude (i : Instr) (s : State) : exec i s = conclude s (effect i s) := by
  cases i <;> rfl

/-- What an instruction keeps: configuration, `pc`, no error or refusal raised, memory's form and its place in the region. -/
structure Keeps (s t : State) : Prop where
  cfg : t.cfg = s.cfg
  pc : t.pc = s.pc
  error : t.error = s.error
  refused : t.refused = s.refused
  wf : Memory.wf s.mem = true → Memory.wf t.mem = true
  inside : Memory.inside s.cfg s.mem = true → Memory.inside s.cfg t.mem = true

/-- A binary ALU effect that completes leaves a result in operand1, on readable operands. -/
theorem binary_ok {f : (W : Nat) → BitVec W → BitVec W → Except Stop (BitVec W)} {r : GenericRec} {s t : State}
    (h : binary f r s = .ok t) : Op1Ready s r ∧ ∃ v, t = op1Result s r v := by
  by_cases hr : SlotReady s r r.operand2 r.op2Indirect ∧ Op1Ready s r
  · rw [binary_ready hr.1 hr.2] at h
    cases hf : f (opWidth r) (op1Word s r) (slotWord s r r.operand2 r.op2Indirect) with
    | error e => rw [hf] at h; cases h
    | ok v => rw [hf] at h; exact ⟨hr.2, v, (Except.ok.inj h).symm⟩
  · rw [binary_not_ready (by tauto)] at h
    cases h

theorem unary_ok {f : (W : Nat) → BitVec W → BitVec W} {r : GenericRec} {s t : State} (h : unary f r s = .ok t) :
    Op1Ready s r ∧ ∃ v, t = op1Result s r v := by
  by_cases hr : SlotReady s r r.operand2 r.op2Indirect ∧ Op1Ready s r
  · rw [unary_ready hr.1 hr.2] at h
    exact ⟨hr.2, _, (Except.ok.inj h).symm⟩
  · rw [unary_not_ready (by tauto)] at h
    cases h

theorem push_ok {r : GenericRec} {s t : State} (h : push r s = .ok t) :
    InBounds s (pushAddress r s) (opWidth r / 8) ∧
      ∃ v, t = (s.store (pushAddress r s) (opWidth r / 8) v).setReg .r0 (pushAddress r s) := by
  by_cases h0 : r.operand1 = .r0
  · rw [push_r0 h0] at h
    cases h
  · by_cases hr : SlotReady s r r.operand1 r.op1Indirect ∧ InBounds s (pushAddress r s) (opWidth r / 8)
    · rw [push_ready h0 hr.1 hr.2] at h
      exact ⟨hr.2, _, (Except.ok.inj h).symm⟩
    · rw [push_not_ready h0 (by tauto)] at h
      cases h

theorem mov_ok {n L : Nat} (hn : n ≤ 8) {m : MovRec} {s t : State} (h : mov n L m s = .ok t) :
    MovDestReady s n L m ∧ ∃ v, t = movResult s n L m v := by
  by_cases hi : indexOnDirect m = true
  · rw [mov_index hi] at h
    cases h
  · have hi : indexOnDirect m = false := by simpa using hi
    by_cases hr : MovSourceReady s n L m ∧ MovDestReady s n L m
    · rw [mov_ready hn hi hr.1 hr.2] at h
      exact ⟨hr.2, _, (Except.ok.inj h).symm⟩
    · rw [mov_not_ready hi (by tauto)] at h
      cases h

theorem unlisted_ok {r : GenericRec} {s t : State} (h : unlisted r s = .ok t) : t = s := by
  unfold unlisted at h
  split at h
  · cases h
  · exact (Except.ok.inj h).symm

/-- Storing a result in operand1 keeps what every step keeps. -/
theorem op1Result_keeps {s : State} {r : GenericRec} (h : Op1Ready s r) (v : BitVec (opWidth r)) :
    Keeps s (op1Result s r v) := by
  unfold op1Result
  by_cases hi : r.op1Indirect = true
  · rw [if_pos hi]
    exact ⟨rfl, rfl, rfl, rfl, fun h => store_wf h _ _ _, fun hm => store_inside hm (h hi) _⟩
  · rw [if_neg hi]
    exact ⟨rfl, rfl, rfl, rfl, id, id⟩

/-- Storing a MOV's value keeps what every step keeps. -/
theorem movResult_keeps {s : State} {n L : Nat} {m : MovRec} (h : MovDestReady s n L m) (v : Nat) :
    Keeps s (movResult s n L m v) := by
  unfold movResult
  by_cases hi : m.op1Indirect = true
  · rw [if_pos hi]
    exact ⟨rfl, rfl, rfl, rfl, fun h => store_wf h _ _ _, fun hm => store_inside hm (h hi) _⟩
  · rw [if_neg hi]
    exact ⟨rfl, rfl, rfl, rfl, id, id⟩

/-- What an effect that completes leaves: `halted` is as before unless the instruction is RET, and the rest is kept. -/
theorem effect_ok {i : Instr} {s t : State} (h : effect i s = .ok t) :
    Keeps s t ∧ (t.halted = s.halted ∨ (∃ r, i = .ret r) ∧ t = s.halt) := by
  unfold effect at h
  cases hr : i.record with
  | generic op r =>
    rw [hr] at h
    cases op <;> simp only at h
    case nop => cases h; exact ⟨⟨rfl, rfl, rfl, rfl, id, id⟩, .inl rfl⟩
    case ret => cases h; exact ⟨⟨rfl, rfl, rfl, rfl, id, id⟩, .inr ⟨⟨r, i.eq_of_record hr⟩, rfl⟩⟩
    case push =>
      obtain ⟨hb, v, rfl⟩ := push_ok h
      exact ⟨⟨rfl, rfl, rfl, rfl, fun h => store_wf h _ _ _, fun hm => store_inside hm hb _⟩, .inl rfl⟩
    all_goals
      obtain ⟨h1, v, rfl⟩ := by first | exact unary_ok h | exact binary_ok h
      exact ⟨op1Result_keeps h1 v, .inl (by unfold op1Result; split <;> rfl)⟩
  | mov op r =>
    rw [hr] at h
    obtain ⟨hd, v, rfl⟩ := mov_ok op.opLen_le h
    exact ⟨movResult_keeps hd v, .inl (by unfold movResult; split <;> rfl)⟩
  | unlisted op r =>
    rw [hr] at h
    cases unlisted_ok h
    exact ⟨⟨rfl, rfl, rfl, rfl, id, id⟩, .inl rfl⟩

/-! ## The step -/

/-- A running state's step, by what the fetch answers. -/
theorem step_running {s : State} (h : s.Running) :
    step s = match s.fetch with
      | .error x => conclude s (.error x)
      | .ok p => retire p.2 (exec p.1 s) := by
  have e := State.noStep_of_running h
  exact (congrArg (fun o => match o with
    | some f => Host.Outcome.fault f
    | none => match s.fetch with
      | .error x => conclude s (.error x)
      | .ok p => retire p.2 (exec p.1 s)) e)

/-- A step that gives a next state started in a running one, and took the decoder's error or refusal or retired an
instruction. -/
theorem step_cases {s t : State} (h : step s = .next t) :
    s.Running ∧
      ((∃ e, s.fetch = .error (.error e) ∧ t = s.takeError e) ∨ (∃ r, s.fetch = .error (.refuse r) ∧ t = s.takeRefusal r) ∨
        ∃ i len u, s.fetch = .ok (i, len) ∧ exec i s = .next u ∧ t = if u.stopped then u else u.advance len) := by
  have hr : s.Running := by
    by_contra hn
    unfold step at h
    cases hs : s.noStep with
    | none => exact hn (s.noStep_eq_none.mp hs)
    | some f => rw [hs] at h; cases h
  refine ⟨hr, ?_⟩
  rw [step_running hr] at h
  cases hf : s.fetch with
  | error x =>
    rw [hf] at h
    cases x with
    | error e => exact .inl ⟨e, rfl, (Host.Outcome.next.inj h).symm⟩
    | refuse r => exact .inr (.inl ⟨r, rfl, (Host.Outcome.next.inj h).symm⟩)
  | ok p =>
    rw [hf] at h
    obtain ⟨u, hu⟩ := conclude_next s (effect p.1 s)
    rw [← exec_eq_conclude] at hu
    simp only [hu, retire] at h
    exact .inr (.inr ⟨p.1, p.2, u, rfl, hu, (Host.Outcome.next.inj h).symm⟩)

end Sys2Proof.Machine
end

