-- ==== Sys2Proof/Laws/Formats.lean ====
section
/-! SUPPORT. What the two formats' decoders and encoders can do, said once (30_encoding.md R64, R65, R74, R76): when they answer,
what record they answer, and that they undo each other on a record whose fields fit. -/

namespace Sys2Proof

/-! ## Fields of n bytes -/

theorem leNat_take_lt (L : Nat) (b : List Byte) : leNat (b.take L) < 256 ^ L :=
  lt_of_lt_of_le (leNat_lt _) (Nat.pow_le_pow_right (by omega) (by simp))

theorem leBytes_leNat_take {L : Nat} {b : List Byte} (h : L ≤ b.length) : leBytes L (leNat (b.take L)) = b.take L := by
  have h2 := leBytes_leNat (b.take L)
  rwa [List.length_take, Nat.min_eq_left h] at h2

theorem leNat_take_leBytes_append {L v : Nat} (h : v < 256 ^ L) (b : List Byte) :
    leNat ((leBytes L v ++ b).take L) = v := by
  rw [List.take_append_of_le_length (by simp), List.take_of_length_le (by simp), leNat_leBytes, Nat.mod_eq_of_lt h]

theorem pow_bits_eq_pow_bytes (L : Nat) : 2 ^ (8 * L) = 256 ^ L := by
  rw [Nat.pow_mul]

/-! ## From two bytes on: a refusal, or the format's decoding -/

theorem decode_refused {c : Config} {b0 : Byte} (h : c.refusesRaw (b0.setWidth 6) = true) (b1 : Byte) (rest : List Byte) :
    decode c (b0 :: b1 :: rest) = .error (.refuse (.unlistedOpcode (b0.setWidth 6))) := by
  simp only [decode, headerRaw_headerWord, h, if_true]

/-- Decoding two bytes whose register fields are those of `ra` and `rb`. -/
theorem decode_cons_of_fields {c : Config} {b0 b1 : Byte} {rest : List Byte} {ra rb : RegId}
    (h : c.refusesRaw (headerRaw (headerWord b0 b1)) = false)
    (ha : headerOp1 (headerWord b0 b1) = ra.field) (hb : headerOp2 (headerWord b0 b1) = rb.field) :
    decode c (b0 :: b1 :: rest) = (decodeBody c (headerWord b0 b1) ra rb rest).mapError .error := by
  simp only [decode, h, decodeFields, ha, hb, resolveRegister_field]
  rfl

theorem decode_cons {c : Config} {b0 b1 : Byte} (h : c.refusesRaw (headerRaw (headerWord b0 b1)) = false)
    (rest : List Byte) :
    ∃ ra rb, ra.field = headerOp1 (headerWord b0 b1) ∧ rb.field = headerOp2 (headerWord b0 b1) ∧
      decode c (b0 :: b1 :: rest) = (decodeBody c (headerWord b0 b1) ra rb rest).mapError .error := by
  obtain ⟨ra, ha⟩ := exists_field (headerOp1 (headerWord b0 b1))
  obtain ⟨rb, hb⟩ := exists_field (headerOp2 (headerWord b0 b1))
  exact ⟨ra, rb, ha, hb, decode_cons_of_fields h ha.symm hb.symm⟩

/-- What the decoder answers was not refused. -/
theorem decode_ok_not_refused {c : Config} {b0 b1 : Byte} {rest : List Byte} {p : Instr × Nat}
    (h : decode c (b0 :: b1 :: rest) = .ok p) : c.refusesRaw (headerRaw (headerWord b0 b1)) = false := by
  by_contra hr
  rw [headerRaw_headerWord, Bool.not_eq_false] at hr
  rw [decode_refused hr] at h
  cases h

/-- The length that the first byte fixes, in the header's fields. -/
theorem Machine.lengthOfFirstByte_eq (c : Config) (b0 b1 : Byte) :
    Machine.lengthOfFirstByte c b0 =
      match c.resolveOpcode (headerRaw (headerWord b0 b1)) with
      | .generic _ => genericLen (headerM7 (headerWord b0 b1))
      | .mov op => movLen op.idxLen (headerM7 (headerWord b0 b1)) (headerM6 (headerWord b0 b1))
      | .unlisted _ => genericLen (headerM7 (headerWord b0 b1)) := by
  rw [headerRaw_headerWord, headerM6_headerWord, headerM7_headerWord]
  rfl

/-! ## The generic format -/

variable {h : BitVec 16} {ra rb : RegId} {rest : List Byte}

theorem decodeGeneric_truncated (hl : 2 + rest.length < genericLen (headerM7 h)) :
    decodeGeneric h ra rb rest = .error .truncated := by
  rw [decodeGeneric, if_pos hl]

theorem decodeGeneric_enough (hl : genericLen (headerM7 h) ≤ 2 + rest.length) :
    decodeGeneric h ra rb rest =
      .ok (genericRecord h ra rb (if headerM7 h then BitVec.ofNat 32 (leNat (rest.take 2)) else 0),
        genericLen (headerM7 h)) := by
  rw [decodeGeneric, if_neg (by omega)]

theorem encodeGeneric_genericRecord (ha : ra.field = headerOp1 h) (hb : rb.field = headerOp2 h) (imm : BitVec 32) :
    encodeGeneric (genericRecord h ra rb imm) =
      leBytes 2 h.toNat ++ if headerM7 h then leBytes 2 imm.toNat else [] := by
  show leBytes 2 (encodeHeader (headerRaw h) (headerM6 h) (headerM7 h) ra (headerInd1 h) rb (headerInd2 h)).toNat ++ _ = _
  rw [encodeHeader_fields ra rb h ha hb]
  rfl

/-- What the generic format answers: a well-formed record, its length, and a record whose encoding is the bytes read. -/
theorem decodeGeneric_ok {r : GenericRec} {n : Nat} (ha : ra.field = headerOp1 h) (hb : rb.field = headerOp2 h)
    (hd : decodeGeneric h ra rb rest = .ok (r, n)) :
    n = genericLen r.isImm ∧ n ≤ 2 + rest.length ∧ r.wf = true ∧ r.rawOpcode = headerRaw h ∧
      encodeGeneric r = leBytes 2 h.toNat ++ rest.take (n - 2) := by
  by_cases hl : genericLen (headerM7 h) ≤ 2 + rest.length
  · rw [decodeGeneric_enough hl] at hd
    obtain ⟨rfl, rfl⟩ := Prod.mk.inj (Except.ok.inj hd)
    have ht := leNat_take_lt 2 rest
    refine ⟨rfl, hl, ?_, rfl, ?_⟩
    · cases hm : headerM7 h with
      | false => simp [GenericRec.wf, genericRecord, hm]
      | true =>
        simp [GenericRec.wf, genericRecord, hm]
        omega
    · rw [encodeGeneric_genericRecord ha hb]
      cases hm : headerM7 h with
      | false => simp [genericLen]
      | true =>
        rw [hm] at hl
        simp only [genericLen, if_true] at hl
        simp only [if_true, genericLen, BitVec.toNat_ofNat, List.append_cancel_left_eq]
        rw [Nat.mod_eq_of_lt (by omega), leBytes_leNat_take (by omega)]
  · rw [decodeGeneric_truncated (by omega)] at hd
    cases hd

/-- The generic encoding of a record is a header with its fields, and what follows it decodes to the record. -/
theorem decodeGeneric_encode {r : GenericRec} (hr : r.wf = true) :
    ∃ b0 b1 tl, encodeGeneric r = b0 :: b1 :: tl ∧ headerRaw (headerWord b0 b1) = r.rawOpcode ∧
      headerOp1 (headerWord b0 b1) = r.operand1.field ∧ headerOp2 (headerWord b0 b1) = r.operand2.field ∧
      ∀ rest, decodeGeneric (headerWord b0 b1) r.operand1 r.operand2 (tl ++ rest) = .ok (r, genericLen r.isImm) := by
  obtain ⟨raw, isImm, is64, o1, i1, o2, i2, imm⟩ := r
  obtain ⟨b0, b1, h1, h2⟩ := headerWord_leBytes (encodeHeader raw is64 isImm o1 i1 o2 i2)
  refine ⟨b0, b1, if isImm then leBytes 2 imm.toNat else [], ?_, ?_, ?_, ?_, ?_⟩
  · simp [encodeGeneric, h1]
  · simp [h2]
  · simp [h2]
  · simp [h2]
  · intro rest
    simp only [GenericRec.wf, Bool.and_eq_true, decide_eq_true_eq, Bool.or_eq_true, beq_iff_eq] at hr
    rw [h2, decodeGeneric_enough (by cases isImm <;> simp [genericLen]; omega)]
    cases isImm with
    | false => simp [genericRecord, show imm = 0 by simpa using hr.2]
    | true =>
      simp only [headerM7_encodeHeader, if_true]
      rw [leNat_take_leBytes_append hr.1]
      simp [genericRecord]

/-! ## The MOV format -/

theorem decodeMov_truncated {L : Nat} (hl : 2 + rest.length < movLen L (headerM7 h) (headerM6 h)) :
    decodeMov L h ra rb rest = .error .truncated := by
  rw [decodeMov, if_pos hl]

theorem decodeMov_enough {L : Nat} (hl : movLen L (headerM7 h) (headerM6 h) ≤ 2 + rest.length) :
    ∃ r, decodeMov L h ra rb rest = .ok (r, movLen L (headerM7 h) (headerM6 h)) := by
  rw [decodeMov, if_neg (by omega)]
  exact ⟨_, rfl⟩

/-- What the MOV format answers: a well-formed record, its length, and a record whose encoding is the bytes read. -/
theorem decodeMov_ok {L : Nat} (hL : L ≤ 8) {r : MovRec} {n : Nat} (ha : ra.field = headerOp1 h)
    (hb : rb.field = headerOp2 h) (hd : decodeMov L h ra rb rest = .ok (r, n)) :
    n = movLen L r.isOp1Idx r.isOp2Idx ∧ n ≤ 2 + rest.length ∧ r.wf L = true ∧ r.rawOpcode = headerRaw h ∧
      encodeMov L r = leBytes 2 h.toNat ++ rest.take (n - 2) := by
  have h64 : 256 ^ L ≤ 2 ^ 64 := by
    rw [← pow_bits_eq_pow_bytes]
    exact Nat.pow_le_pow_right (by omega) (by omega)
  by_cases hl : 2 + rest.length < movLen L (headerM7 h) (headerM6 h)
  · rw [decodeMov_truncated hl] at hd
    cases hd
  · rw [decodeMov, if_neg hl] at hd
    obtain ⟨rfl, rfl⟩ := Prod.mk.inj (Except.ok.inj hd)
    have t1 := leNat_take_lt L rest
    have t2 := leNat_take_lt L (rest.drop L)
    refine ⟨rfl, by omega, ?_, rfl, ?_⟩
    · simp only [MovRec.wf, pow_bits_eq_pow_bytes]
      cases headerM7 h <;> cases headerM6 h <;> simp <;> omega
    · simp only [encodeMov]
      rw [encodeHeader_fields ra rb h ha hb]
      unfold movLen at hl ⊢
      cases hm : headerM7 h <;> cases hk : headerM6 h <;> rw [hm, hk] at hl <;> simp at hl ⊢
      · rw [Nat.mod_eq_of_lt (by omega), leBytes_leNat_take (by omega)]
      · rw [Nat.mod_eq_of_lt (by omega), leBytes_leNat_take (by omega)]
      · rw [Nat.mod_eq_of_lt (by omega), Nat.mod_eq_of_lt (by omega), leBytes_leNat_take (by omega),
          leBytes_leNat_take (by simp; omega), ← List.take_add]
        congr 1
        omega

/-- The MOV encoding of a record is a header with its fields, and what follows it decodes to the record. -/
theorem decodeMov_encode {L : Nat} {r : MovRec} (hr : r.wf L = true) :
    ∃ b0 b1 tl, encodeMov L r = b0 :: b1 :: tl ∧ headerRaw (headerWord b0 b1) = r.rawOpcode ∧
      headerOp1 (headerWord b0 b1) = r.operand1.field ∧ headerOp2 (headerWord b0 b1) = r.operand2.field ∧
      ∀ rest, decodeMov L (headerWord b0 b1) r.operand1 r.operand2 (tl ++ rest) =
        .ok (r, movLen L r.isOp1Idx r.isOp2Idx) := by
  obtain ⟨raw, o1, i1, o2, i2, f1, f2, x1, x2⟩ := r
  obtain ⟨b0, b1, h1, h2⟩ := headerWord_leBytes (encodeHeader raw f2 f1 o1 i1 o2 i2)
  refine ⟨b0, b1, (if f1 then leBytes L x1.toNat else []) ++ (if f2 then leBytes L x2.toNat else []), ?_, ?_, ?_, ?_, ?_⟩
  · simp [encodeMov, h1]
  · simp [h2]
  · simp [h2]
  · simp [h2]
  · intro rest
    simp only [MovRec.wf, Bool.and_eq_true, decide_eq_true_eq, Bool.or_eq_true, beq_iff_eq, pow_bits_eq_pow_bytes] at hr
    obtain ⟨⟨⟨b1', b2'⟩, z1⟩, z2⟩ := hr
    rw [h2, decodeMov, if_neg (by cases f1 <;> cases f2 <;> simp [movLen] <;> omega)]
    cases f1 <;> cases f2 <;> simp at z1 z2 <;>
      simp [Nat.mod_eq_of_lt b1', Nat.mod_eq_of_lt b2', z1, z2]

end Sys2Proof
end

