-- ==== Sys2Proof/Laws/PerInstr.lean ====
section
/-! SUPPORT. Per-instruction statements about the syntax: the encoder writes as many bytes as the length rule says
(30_encoding.md R75). One lemma per constructor of Instr. -/

/-- The encoding of the instruction has the length of R75, and that is at least 2 and at most 18 bytes. -/
def Sys2Proof.Laws.EncodeLength.Statement (i : Sys2Proof.Instr) : Prop :=
  (Sys2Proof.encode i).length = i.length ∧ 2 ≤ i.length ∧ i.length ≤ 18

/-- The one proof behind the family. -/
theorem Sys2Proof.Laws.EncodeLength.statement_of (i : Sys2Proof.Instr) : Sys2Proof.Laws.EncodeLength.Statement i :=
  ⟨Sys2Proof.length_encode i, i.length_bounds⟩

theorem Sys2Proof.Laws.EncodeLength.nop (r : Sys2Proof.GenericRec) :
    Sys2Proof.Laws.EncodeLength.Statement (.nop r) := Sys2Proof.Laws.EncodeLength.statement_of _
theorem Sys2Proof.Laws.EncodeLength.ret (r : Sys2Proof.GenericRec) :
    Sys2Proof.Laws.EncodeLength.Statement (.ret r) := Sys2Proof.Laws.EncodeLength.statement_of _
theorem Sys2Proof.Laws.EncodeLength.not (r : Sys2Proof.GenericRec) :
    Sys2Proof.Laws.EncodeLength.Statement (.not r) := Sys2Proof.Laws.EncodeLength.statement_of _
theorem Sys2Proof.Laws.EncodeLength.neg (r : Sys2Proof.GenericRec) :
    Sys2Proof.Laws.EncodeLength.Statement (.neg r) := Sys2Proof.Laws.EncodeLength.statement_of _
theorem Sys2Proof.Laws.EncodeLength.add (r : Sys2Proof.GenericRec) :
    Sys2Proof.Laws.EncodeLength.Statement (.add r) := Sys2Proof.Laws.EncodeLength.statement_of _
theorem Sys2Proof.Laws.EncodeLength.sub (r : Sys2Proof.GenericRec) :
    Sys2Proof.Laws.EncodeLength.Statement (.sub r) := Sys2Proof.Laws.EncodeLength.statement_of _
theorem Sys2Proof.Laws.EncodeLength.mul (r : Sys2Proof.GenericRec) :
    Sys2Proof.Laws.EncodeLength.Statement (.mul r) := Sys2Proof.Laws.EncodeLength.statement_of _
theorem Sys2Proof.Laws.EncodeLength.mulu (r : Sys2Proof.GenericRec) :
    Sys2Proof.Laws.EncodeLength.Statement (.mulu r) := Sys2Proof.Laws.EncodeLength.statement_of _
theorem Sys2Proof.Laws.EncodeLength.div (r : Sys2Proof.GenericRec) :
    Sys2Proof.Laws.EncodeLength.Statement (.div r) := Sys2Proof.Laws.EncodeLength.statement_of _
theorem Sys2Proof.Laws.EncodeLength.divu (r : Sys2Proof.GenericRec) :
    Sys2Proof.Laws.EncodeLength.Statement (.divu r) := Sys2Proof.Laws.EncodeLength.statement_of _
theorem Sys2Proof.Laws.EncodeLength.mod (r : Sys2Proof.GenericRec) :
    Sys2Proof.Laws.EncodeLength.Statement (.mod r) := Sys2Proof.Laws.EncodeLength.statement_of _
theorem Sys2Proof.Laws.EncodeLength.modu (r : Sys2Proof.GenericRec) :
    Sys2Proof.Laws.EncodeLength.Statement (.modu r) := Sys2Proof.Laws.EncodeLength.statement_of _
theorem Sys2Proof.Laws.EncodeLength.and (r : Sys2Proof.GenericRec) :
    Sys2Proof.Laws.EncodeLength.Statement (.and r) := Sys2Proof.Laws.EncodeLength.statement_of _
theorem Sys2Proof.Laws.EncodeLength.or (r : Sys2Proof.GenericRec) :
    Sys2Proof.Laws.EncodeLength.Statement (.or r) := Sys2Proof.Laws.EncodeLength.statement_of _
theorem Sys2Proof.Laws.EncodeLength.xor (r : Sys2Proof.GenericRec) :
    Sys2Proof.Laws.EncodeLength.Statement (.xor r) := Sys2Proof.Laws.EncodeLength.statement_of _
theorem Sys2Proof.Laws.EncodeLength.shl (r : Sys2Proof.GenericRec) :
    Sys2Proof.Laws.EncodeLength.Statement (.shl r) := Sys2Proof.Laws.EncodeLength.statement_of _
theorem Sys2Proof.Laws.EncodeLength.shr (r : Sys2Proof.GenericRec) :
    Sys2Proof.Laws.EncodeLength.Statement (.shr r) := Sys2Proof.Laws.EncodeLength.statement_of _
theorem Sys2Proof.Laws.EncodeLength.push (r : Sys2Proof.GenericRec) :
    Sys2Proof.Laws.EncodeLength.Statement (.push r) := Sys2Proof.Laws.EncodeLength.statement_of _
theorem Sys2Proof.Laws.EncodeLength.movbw (r : Sys2Proof.MovRec) :
    Sys2Proof.Laws.EncodeLength.Statement (.movbw r) := Sys2Proof.Laws.EncodeLength.statement_of _
theorem Sys2Proof.Laws.EncodeLength.movbd (r : Sys2Proof.MovRec) :
    Sys2Proof.Laws.EncodeLength.Statement (.movbd r) := Sys2Proof.Laws.EncodeLength.statement_of _
theorem Sys2Proof.Laws.EncodeLength.movww (r : Sys2Proof.MovRec) :
    Sys2Proof.Laws.EncodeLength.Statement (.movww r) := Sys2Proof.Laws.EncodeLength.statement_of _
theorem Sys2Proof.Laws.EncodeLength.movwd (r : Sys2Proof.MovRec) :
    Sys2Proof.Laws.EncodeLength.Statement (.movwd r) := Sys2Proof.Laws.EncodeLength.statement_of _
theorem Sys2Proof.Laws.EncodeLength.movdw (r : Sys2Proof.MovRec) :
    Sys2Proof.Laws.EncodeLength.Statement (.movdw r) := Sys2Proof.Laws.EncodeLength.statement_of _
theorem Sys2Proof.Laws.EncodeLength.movdd (r : Sys2Proof.MovRec) :
    Sys2Proof.Laws.EncodeLength.Statement (.movdd r) := Sys2Proof.Laws.EncodeLength.statement_of _
theorem Sys2Proof.Laws.EncodeLength.movqw (r : Sys2Proof.MovRec) :
    Sys2Proof.Laws.EncodeLength.Statement (.movqw r) := Sys2Proof.Laws.EncodeLength.statement_of _
theorem Sys2Proof.Laws.EncodeLength.movqd (r : Sys2Proof.MovRec) :
    Sys2Proof.Laws.EncodeLength.Statement (.movqd r) := Sys2Proof.Laws.EncodeLength.statement_of _
theorem Sys2Proof.Laws.EncodeLength.movqq (r : Sys2Proof.MovRec) :
    Sys2Proof.Laws.EncodeLength.Statement (.movqq r) := Sys2Proof.Laws.EncodeLength.statement_of _
theorem Sys2Proof.Laws.EncodeLength.unlistedBreak (r : Sys2Proof.GenericRec) :
    Sys2Proof.Laws.EncodeLength.Statement (.unlistedBreak r) := Sys2Proof.Laws.EncodeLength.statement_of _
theorem Sys2Proof.Laws.EncodeLength.unlistedJmp (r : Sys2Proof.GenericRec) :
    Sys2Proof.Laws.EncodeLength.Statement (.unlistedJmp r) := Sys2Proof.Laws.EncodeLength.statement_of _
theorem Sys2Proof.Laws.EncodeLength.unlistedJmp8 (r : Sys2Proof.GenericRec) :
    Sys2Proof.Laws.EncodeLength.Statement (.unlistedJmp8 r) := Sys2Proof.Laws.EncodeLength.statement_of _
theorem Sys2Proof.Laws.EncodeLength.unlistedCall (r : Sys2Proof.GenericRec) :
    Sys2Proof.Laws.EncodeLength.Statement (.unlistedCall r) := Sys2Proof.Laws.EncodeLength.statement_of _
theorem Sys2Proof.Laws.EncodeLength.unlistedCmpeq (r : Sys2Proof.GenericRec) :
    Sys2Proof.Laws.EncodeLength.Statement (.unlistedCmpeq r) := Sys2Proof.Laws.EncodeLength.statement_of _
theorem Sys2Proof.Laws.EncodeLength.unlistedCmplte (r : Sys2Proof.GenericRec) :
    Sys2Proof.Laws.EncodeLength.Statement (.unlistedCmplte r) := Sys2Proof.Laws.EncodeLength.statement_of _
theorem Sys2Proof.Laws.EncodeLength.unlistedCmpgte (r : Sys2Proof.GenericRec) :
    Sys2Proof.Laws.EncodeLength.Statement (.unlistedCmpgte r) := Sys2Proof.Laws.EncodeLength.statement_of _
theorem Sys2Proof.Laws.EncodeLength.unlistedCmpulte (r : Sys2Proof.GenericRec) :
    Sys2Proof.Laws.EncodeLength.Statement (.unlistedCmpulte r) := Sys2Proof.Laws.EncodeLength.statement_of _
theorem Sys2Proof.Laws.EncodeLength.unlistedCmpugte (r : Sys2Proof.GenericRec) :
    Sys2Proof.Laws.EncodeLength.Statement (.unlistedCmpugte r) := Sys2Proof.Laws.EncodeLength.statement_of _
theorem Sys2Proof.Laws.EncodeLength.unlistedAshr (r : Sys2Proof.GenericRec) :
    Sys2Proof.Laws.EncodeLength.Statement (.unlistedAshr r) := Sys2Proof.Laws.EncodeLength.statement_of _
theorem Sys2Proof.Laws.EncodeLength.unlistedExtndb (r : Sys2Proof.GenericRec) :
    Sys2Proof.Laws.EncodeLength.Statement (.unlistedExtndb r) := Sys2Proof.Laws.EncodeLength.statement_of _
theorem Sys2Proof.Laws.EncodeLength.unlistedExtndw (r : Sys2Proof.GenericRec) :
    Sys2Proof.Laws.EncodeLength.Statement (.unlistedExtndw r) := Sys2Proof.Laws.EncodeLength.statement_of _
theorem Sys2Proof.Laws.EncodeLength.unlistedExtndd (r : Sys2Proof.GenericRec) :
    Sys2Proof.Laws.EncodeLength.Statement (.unlistedExtndd r) := Sys2Proof.Laws.EncodeLength.statement_of _
theorem Sys2Proof.Laws.EncodeLength.unlistedMovsnw (r : Sys2Proof.GenericRec) :
    Sys2Proof.Laws.EncodeLength.Statement (.unlistedMovsnw r) := Sys2Proof.Laws.EncodeLength.statement_of _
theorem Sys2Proof.Laws.EncodeLength.unlistedMovsnd (r : Sys2Proof.GenericRec) :
    Sys2Proof.Laws.EncodeLength.Statement (.unlistedMovsnd r) := Sys2Proof.Laws.EncodeLength.statement_of _
theorem Sys2Proof.Laws.EncodeLength.unlistedLoadsp (r : Sys2Proof.GenericRec) :
    Sys2Proof.Laws.EncodeLength.Statement (.unlistedLoadsp r) := Sys2Proof.Laws.EncodeLength.statement_of _
theorem Sys2Proof.Laws.EncodeLength.unlistedStoresp (r : Sys2Proof.GenericRec) :
    Sys2Proof.Laws.EncodeLength.Statement (.unlistedStoresp r) := Sys2Proof.Laws.EncodeLength.statement_of _
theorem Sys2Proof.Laws.EncodeLength.unlistedPop (r : Sys2Proof.GenericRec) :
    Sys2Proof.Laws.EncodeLength.Statement (.unlistedPop r) := Sys2Proof.Laws.EncodeLength.statement_of _
theorem Sys2Proof.Laws.EncodeLength.unlistedCmpieq (r : Sys2Proof.GenericRec) :
    Sys2Proof.Laws.EncodeLength.Statement (.unlistedCmpieq r) := Sys2Proof.Laws.EncodeLength.statement_of _
theorem Sys2Proof.Laws.EncodeLength.unlistedCmpilte (r : Sys2Proof.GenericRec) :
    Sys2Proof.Laws.EncodeLength.Statement (.unlistedCmpilte r) := Sys2Proof.Laws.EncodeLength.statement_of _
theorem Sys2Proof.Laws.EncodeLength.unlistedCmpigte (r : Sys2Proof.GenericRec) :
    Sys2Proof.Laws.EncodeLength.Statement (.unlistedCmpigte r) := Sys2Proof.Laws.EncodeLength.statement_of _
theorem Sys2Proof.Laws.EncodeLength.unlistedCmpiulte (r : Sys2Proof.GenericRec) :
    Sys2Proof.Laws.EncodeLength.Statement (.unlistedCmpiulte r) := Sys2Proof.Laws.EncodeLength.statement_of _
theorem Sys2Proof.Laws.EncodeLength.unlistedCmpiugte (r : Sys2Proof.GenericRec) :
    Sys2Proof.Laws.EncodeLength.Statement (.unlistedCmpiugte r) := Sys2Proof.Laws.EncodeLength.statement_of _
theorem Sys2Proof.Laws.EncodeLength.unlistedMovnw (r : Sys2Proof.GenericRec) :
    Sys2Proof.Laws.EncodeLength.Statement (.unlistedMovnw r) := Sys2Proof.Laws.EncodeLength.statement_of _
theorem Sys2Proof.Laws.EncodeLength.unlistedMovnd (r : Sys2Proof.GenericRec) :
    Sys2Proof.Laws.EncodeLength.Statement (.unlistedMovnd r) := Sys2Proof.Laws.EncodeLength.statement_of _
theorem Sys2Proof.Laws.EncodeLength.unlistedPushn (r : Sys2Proof.GenericRec) :
    Sys2Proof.Laws.EncodeLength.Statement (.unlistedPushn r) := Sys2Proof.Laws.EncodeLength.statement_of _
theorem Sys2Proof.Laws.EncodeLength.unlistedPopn (r : Sys2Proof.GenericRec) :
    Sys2Proof.Laws.EncodeLength.Statement (.unlistedPopn r) := Sys2Proof.Laws.EncodeLength.statement_of _
theorem Sys2Proof.Laws.EncodeLength.unlistedMovi (r : Sys2Proof.GenericRec) :
    Sys2Proof.Laws.EncodeLength.Statement (.unlistedMovi r) := Sys2Proof.Laws.EncodeLength.statement_of _
theorem Sys2Proof.Laws.EncodeLength.unlistedMovin (r : Sys2Proof.GenericRec) :
    Sys2Proof.Laws.EncodeLength.Statement (.unlistedMovin r) := Sys2Proof.Laws.EncodeLength.statement_of _
theorem Sys2Proof.Laws.EncodeLength.unlistedMovrel (r : Sys2Proof.GenericRec) :
    Sys2Proof.Laws.EncodeLength.Statement (.unlistedMovrel r) := Sys2Proof.Laws.EncodeLength.statement_of _
end

