-- ==== Sys2Proof/Laws/Shapes.lean ====
section
/-! SUPPORT. The step from an instruction's own function to the shapes of Safety.lean, said once for each shared sequence; the
unlisted opcodes in one form; the first bytes of the fetch window. -/

namespace Sys2Proof.Machine

/-! ## The ALU shapes -/

theorem aluResult_unary {mk : GenericRec → Instr} {f : (W : Nat) → BitVec W → BitVec W}
    {ok : State → (W : Nat) → BitVec W → BitVec W → Prop} {g : State → (W : Nat) → BitVec W → BitVec W → BitVec W}
    (hx : ∀ r s, exec (mk r) s = conclude s (unary f r s))
    (h : ∀ s W, W = 32 ∨ W = 64 → ∀ a b, f W b = g s W a b) : AluResult mk ok g := by
  intro r s hs h1 _
  rw [hx, unary_ready hs h1, h s _ (opWidth_cases r)]
  rfl

theorem aluResult_binary {mk : GenericRec → Instr} {f : State → (W : Nat) → BitVec W → BitVec W → Except Stop (BitVec W)}
    {ok : State → (W : Nat) → BitVec W → BitVec W → Prop} {g : State → (W : Nat) → BitVec W → BitVec W → BitVec W}
    (hx : ∀ r s, exec (mk r) s = conclude s (binary (f s) r s))
    (h : ∀ s W, W = 32 ∨ W = 64 → ∀ a b, ok s W a b → f s W a b = .ok (g s W a b)) : AluResult mk ok g := by
  intro r s hs h1 h2
  rw [hx, binary_ready hs h1, h s _ (opWidth_cases r) _ _ h2]
  rfl

theorem aluStops_binary {mk : GenericRec → Instr} {f : State → (W : Nat) → BitVec W → BitVec W → Except Stop (BitVec W)}
    {bad : (W : Nat) → BitVec W → BitVec W → Prop} {e : Stop} {t : State → State}
    (hx : ∀ r s, exec (mk r) s = conclude s (binary (f s) r s))
    (h : ∀ s W, W = 32 ∨ W = 64 → ∀ a b, bad W a b → f s W a b = .error e)
    (ht : ∀ s, conclude s (.error e) = .next (t s)) : AluStops mk bad t := by
  intro r s hs h1 h2
  rw [hx, binary_ready hs h1, h s _ (opWidth_cases r) _ _ h2]
  exact ht s

/-! ## The unlisted opcodes -/

/-- Each of the thirty does what `unlisted` says (30_encoding.md R70). -/
theorem exec_unlisted {mk : GenericRec → Instr} (h : mk ∈ unlistedInstrs) (r : GenericRec) (s : State) :
    exec (mk r) s = conclude s (unlisted r s) := by
  simp only [unlistedInstrs, List.mem_append, List.mem_cons, List.not_mem_nil, or_false] at h
  rcases h with (h | h | h | h | h | h | h | h | h | h | h | h | h | h | h) |
    (h | h | h | h | h | h | h | h | h | h | h | h | h | h | h) <;> subst h <;> rfl

/-! ## The fetch window (20_memory.md R55) -/

theorem length_window (s : State) : s.window.length = min 18 (s.cfg.memSize - s.pc.toNat) := by
  have h : s.avail = s.cfg.memSize - s.pc.toNat := by
    unfold State.avail
    split <;> omega
  simp [State.window, h, maxLength]

/-- With two bytes left the window starts with the header's bytes. -/
theorem window_cons {s : State} (h : s.pc.toNat + 2 ≤ s.cfg.memSize) :
    ∃ rest, s.window = Memory.read s.mem s.pc.toNat :: Memory.read s.mem (s.pc.toNat + 1) :: rest ∧
      2 + rest.length = min 18 (s.cfg.memSize - s.pc.toNat) := by
  have hl := length_window s
  match hw : s.window with
  | [] =>
    rw [hw, List.length_nil] at hl
    omega
  | [_] =>
    rw [hw, List.length_singleton] at hl
    omega
  | a :: b :: rest =>
    have ha : s.window[0]'(by rw [hw]; simp) = a := by simp [hw]
    have hb : s.window[1]'(by rw [hw]; simp) = b := by simp [hw]
    simp only [State.window, Memory.getElem_bytes, Nat.add_zero] at ha hb
    rw [hw] at hl
    simp only [List.length_cons] at hl
    exact ⟨rest, by rw [ha, hb], by omega⟩

end Sys2Proof.Machine
end

