-- ==== Sys2Proof/Tests/Slice0.lean ====
section
/-! SUPPORT. The model's own tests. Expected values are the spec's: words written out from 30_encoding.md's field tables, steps
from 95_test_vectors.md (the vector's name and rule before each). Then a witness for each statement that has hypotheses. -/

open Sys2Proof Sys2Proof.Machine

namespace Sys2Proof.Tests

/-! ## Helpers -/

/-- Bytes at an address, as cells. -/
def cellsAt : Nat → List Byte → List Host.Cell
  | _, [] => []
  | a, b :: bs => (a, b) :: cellsAt (a + 1) bs

/-- A launch with some registers set (the others 0), an instruction at `pc` and data in memory. -/
def start (c : Config) (regs : List (RegId × Word)) (pc : Word) (code : List Byte) (data : List (Nat × List Byte)) : State :=
  regs.foldl (fun s p => s.setReg p.1 p.2)
    (State.launch c State.reset.regs (cellsAt pc.toNat code ++ data.flatMap fun d => cellsAt d.1 d.2) pc)

/-- What one step leaves, seen through `f`. -/
def after {α : Type} (s : State) (f : State → α) : Option α :=
  match step s with
  | .next t => some (f t)
  | _ => none

/-- The default parameters with the unlisted opcodes as NOP. -/
def nopPolicy : Config := { Config.default with unlistedPolicy := .nop }

/-! ## Well-formedness: an ill-formed term for each check -/

theorem test_wf_accepts : (Instr.add ⟨0x0C, true, false, .r1, false, .r0, false, 0xFFFF⟩).wf Config.default = true := by decide
theorem test_wf_refuses_other_raw : (Instr.add ⟨0x0D, false, false, .r1, false, .r2, false, 0⟩).wf Config.default = false := by
  decide
theorem test_wf_refuses_nop_at_assigned_raw :
    (Instr.nop ⟨0x04, false, false, .r0, false, .r0, false, 0⟩).wf Config.default = false := by decide
theorem test_wf_refuses_wide_immediate :
    (Instr.add ⟨0x0C, true, false, .r1, false, .r0, false, 0x10000⟩).wf Config.default = false := by decide
theorem test_wf_refuses_immediate_without_flag :
    (Instr.add ⟨0x0C, false, false, .r1, false, .r0, false, 1⟩).wf Config.default = false := by decide
theorem test_wf_refuses_wide_index1 :
    (Instr.movbw ⟨0x1D, .r1, true, .r2, true, true, true, 0x10000, 0⟩).wf Config.default = false := by decide
theorem test_wf_refuses_wide_index2 :
    (Instr.movbd ⟨0x21, .r1, true, .r2, true, true, true, 0, 0x100000000⟩).wf Config.default = false := by decide
theorem test_wf_refuses_index1_without_flag :
    (Instr.movqq ⟨0x28, .r1, true, .r2, true, false, true, 1, 0⟩).wf Config.default = false := by decide
theorem test_wf_refuses_index2_without_flag :
    (Instr.movqq ⟨0x28, .r1, true, .r2, true, true, false, 0, 1⟩).wf Config.default = false := by decide
theorem test_wf_refuses_unlisted_wide_immediate :
    (Instr.unlistedJmp ⟨0x01, true, false, .r0, false, .r0, false, 0x10000⟩).wf nopPolicy = false := by decide
/-- R70: an unlisted opcode is well formed under `nop` and not under `refuse`. -/
theorem test_wf_refuses_unlisted_under_refuse :
    (Instr.unlistedJmp ⟨0x01, false, false, .r0, false, .r0, false, 0⟩).wf nopPolicy = true ∧
    (Instr.unlistedJmp ⟨0x01, false, false, .r0, false, .r0, false, 0⟩).wf Config.default = false := by decide

theorem test_config_wf : Config.default.wf = true := by decide
theorem test_config_refuses_no_memory : ({ Config.default with memSize := 0 } : Config).wf = false := by decide
theorem test_config_refuses_too_much_memory : ({ Config.default with memSize := 2 ^ 64 + 1 } : Config).wf = false := by decide
theorem test_config_refuses_raw_twice :
    ({ Config.default with opcodeMap := (0x0C#6, .unlisted .jmp) :: defaultOpcodeMap } : Config).wf = false := by decide
theorem test_config_refuses_tag_twice :
    ({ Config.default with opcodeMap := (0x27#6, .generic .add) :: defaultOpcodeMap } : Config).wf = false := by decide
theorem test_config_refuses_missing_tag : ({ Config.default with opcodeMap := [] } : Config).wf = false := by decide

/-! ## The default opcode map, R68's table in its order -/

theorem test_map_1 :
    (List.range 16).map (fun k => Config.default.resolveOpcode (BitVec.ofNat 6 (0 + k))) =
      [.unlisted .break_, .unlisted .jmp, .unlisted .jmp8, .unlisted .call, .generic .ret, .unlisted .cmpeq,
       .unlisted .cmplte, .unlisted .cmpgte, .unlisted .cmpulte, .unlisted .cmpugte, .generic .not, .generic .neg,
       .generic .add, .generic .sub, .generic .mul, .generic .mulu] := by decide
theorem test_map_2 :
    (List.range 16).map (fun k => Config.default.resolveOpcode (BitVec.ofNat 6 (16 + k))) =
      [.generic .div, .generic .divu, .generic .mod, .generic .modu, .generic .and, .generic .or, .generic .xor,
       .generic .shl, .generic .shr, .unlisted .ashr, .unlisted .extndb, .unlisted .extndw, .unlisted .extndd, .mov .bw,
       .mov .ww, .mov .dw] := by decide
theorem test_map_3 :
    (List.range 16).map (fun k => Config.default.resolveOpcode (BitVec.ofNat 6 (32 + k))) =
      [.mov .qw, .mov .bd, .mov .wd, .mov .dd, .mov .qd, .unlisted .movsnw, .unlisted .movsnd, .generic .nop, .mov .qq,
       .unlisted .loadsp, .unlisted .storesp, .generic .push, .unlisted .pop, .unlisted .cmpieq, .unlisted .cmpilte,
       .unlisted .cmpigte] := by decide
theorem test_map_4 :
    (List.range 16).map (fun k => Config.default.resolveOpcode (BitVec.ofNat 6 (48 + k))) =
      [.unlisted .cmpiulte, .unlisted .cmpiugte, .unlisted .movnw, .unlisted .movnd, .generic .nop, .unlisted .pushn,
       .unlisted .popn, .unlisted .movi, .unlisted .movin, .unlisted .movrel, .generic .nop, .generic .nop,
       .generic .nop, .generic .nop, .generic .nop, .generic .nop] := by decide

/-! ## Decoding: a word of every constructor, R61's fields written out (operand1 in bits 10:8, bit 11, operand2 in 14:12, bit 15) -/

theorem test_decode_nop :
    decodeTableWord 32 (0b1_001_0_000_1_1_111111 + 0x9532 * 2 ^ 16) =
      some (.nop ⟨0x3F, true, true, .r0, false, .r1, true, 0x9532⟩) := by decide
theorem test_decode_ret :
    decodeTableWord 32 (0b1_001_1_000_1_0_000100 + 0x1739 * 2 ^ 16) =
      some (.ret ⟨0x04, true, false, .r0, true, .r1, true, 0x1739⟩) := by decide
theorem test_decode_not :
    decodeTableWord 16 0b0_011_0_001_0_1_001010 =
      some (.not ⟨0x0A, false, true, .r1, false, .r3, false, 0x0⟩) := by decide
theorem test_decode_neg :
    decodeTableWord 32 (0b0_011_1_000_1_0_001011 + 0x4A24 * 2 ^ 16) =
      some (.neg ⟨0x0B, true, false, .r0, true, .r3, false, 0x4A24⟩) := by decide
theorem test_decode_add :
    decodeTableWord 32 (0b0_010_1_100_1_0_001100 + 0x3019 * 2 ^ 16) =
      some (.add ⟨0x0C, true, false, .r4, true, .r2, false, 0x3019⟩) := by decide
theorem test_decode_sub :
    decodeTableWord 32 (0b1_000_0_001_1_0_001101 + 0x881F * 2 ^ 16) =
      some (.sub ⟨0x0D, true, false, .r1, false, .r0, true, 0x881F⟩) := by decide
theorem test_decode_mul :
    decodeTableWord 32 (0b0_101_1_111_1_1_001110 + 0xB2F2 * 2 ^ 16) =
      some (.mul ⟨0x0E, true, true, .r7, true, .r5, false, 0xB2F2⟩) := by decide
theorem test_decode_mulu :
    decodeTableWord 16 0b0_111_0_100_0_1_001111 =
      some (.mulu ⟨0x0F, false, true, .r4, false, .r7, false, 0x0⟩) := by decide
theorem test_decode_div :
    decodeTableWord 32 (0b1_110_1_001_1_0_010000 + 0xEEEB * 2 ^ 16) =
      some (.div ⟨0x10, true, false, .r1, true, .r6, true, 0xEEEB⟩) := by decide
theorem test_decode_divu :
    decodeTableWord 32 (0b1_101_1_001_1_1_010001 + 0x7F27 * 2 ^ 16) =
      some (.divu ⟨0x11, true, true, .r1, true, .r5, true, 0x7F27⟩) := by decide
theorem test_decode_mod :
    decodeTableWord 16 0b0_100_1_001_0_1_010010 =
      some (.mod ⟨0x12, false, true, .r1, true, .r4, false, 0x0⟩) := by decide
theorem test_decode_modu :
    decodeTableWord 32 (0b0_100_0_111_1_0_010011 + 0x58D6 * 2 ^ 16) =
      some (.modu ⟨0x13, true, false, .r7, false, .r4, false, 0x58D6⟩) := by decide
theorem test_decode_and :
    decodeTableWord 32 (0b1_001_1_010_1_1_010100 + 0x4996 * 2 ^ 16) =
      some (.and ⟨0x14, true, true, .r2, true, .r1, true, 0x4996⟩) := by decide
theorem test_decode_or :
    decodeTableWord 32 (0b1_111_1_110_1_1_010101 + 0x8CA9 * 2 ^ 16) =
      some (.or ⟨0x15, true, true, .r6, true, .r7, true, 0x8CA9⟩) := by decide
theorem test_decode_xor :
    decodeTableWord 32 (0b0_100_0_110_1_1_010110 + 0xAEC7 * 2 ^ 16) =
      some (.xor ⟨0x16, true, true, .r6, false, .r4, false, 0xAEC7⟩) := by decide
theorem test_decode_shl :
    decodeTableWord 16 0b1_001_1_010_0_0_010111 =
      some (.shl ⟨0x17, false, false, .r2, true, .r1, true, 0x0⟩) := by decide
theorem test_decode_shr :
    decodeTableWord 32 (0b1_100_1_010_1_1_011000 + 0x88DB * 2 ^ 16) =
      some (.shr ⟨0x18, true, true, .r2, true, .r4, true, 0x88DB⟩) := by decide
theorem test_decode_push :
    decodeTableWord 32 (0b0_000_1_010_1_0_101011 + 0xF3AF * 2 ^ 16) =
      some (.push ⟨0x2B, true, false, .r2, true, .r0, false, 0xF3AF⟩) := by decide
theorem test_decode_movbw :
    decodeTableWord 48 (0b1_110_1_110_1_1_011101 + 0x6684 * 2 ^ 16 + 0xFF0 * 2 ^ 32) =
      some (.movbw ⟨0x1D, .r6, true, .r6, true, true, true, 0x6684, 0xFF0⟩) := by decide
theorem test_decode_movbd :
    decodeTableWord 48 (0b1_001_0_011_0_1_100001 + 0x570DC196 * 2 ^ 16) =
      some (.movbd ⟨0x21, .r3, false, .r1, true, false, true, 0x0, 0x570DC196⟩) := by decide
theorem test_decode_movww :
    decodeTableWord 32 (0b1_001_1_000_0_1_011110 + 0xF2EF * 2 ^ 16) =
      some (.movww ⟨0x1E, .r0, true, .r1, true, false, true, 0x0, 0xF2EF⟩) := by decide
theorem test_decode_movwd :
    decodeTableWord 48 (0b1_000_1_101_1_0_100010 + 0x2607679E * 2 ^ 16) =
      some (.movwd ⟨0x22, .r5, true, .r0, true, true, false, 0x2607679E, 0x0⟩) := by decide
theorem test_decode_movdw :
    decodeTableWord 32 (0b1_101_0_100_0_1_011111 + 0xD954 * 2 ^ 16) =
      some (.movdw ⟨0x1F, .r4, false, .r5, true, false, true, 0x0, 0xD954⟩) := by decide
theorem test_decode_movdd :
    decodeTableWord 80 (0b1_111_1_111_1_1_100011 + 0x1A28F7B4 * 2 ^ 16 + 0xBFEAA156 * 2 ^ 48) =
      some (.movdd ⟨0x23, .r7, true, .r7, true, true, true, 0x1A28F7B4, 0xBFEAA156⟩) := by decide
theorem test_decode_movqw :
    decodeTableWord 48 (0b0_100_1_101_1_1_100000 + 0x5EA * 2 ^ 16 + 0x3489 * 2 ^ 32) =
      some (.movqw ⟨0x20, .r5, true, .r4, false, true, true, 0x5EA, 0x3489⟩) := by decide
theorem test_decode_movqd :
    decodeTableWord 80 (0b0_010_0_101_1_1_100100 + 0x4C4F9B07 * 2 ^ 16 + 0xFA7F0EAC * 2 ^ 48) =
      some (.movqd ⟨0x24, .r5, false, .r2, false, true, true, 0x4C4F9B07, 0xFA7F0EAC⟩) := by decide
theorem test_decode_movqq :
    decodeTableWord 144 (0b0_100_0_001_1_1_101000 + 0x3908F227C59DB917 * 2 ^ 16 + 0x8AA4248C8857F9A5 * 2 ^ 80) =
      some (.movqq ⟨0x28, .r1, false, .r4, false, true, true, 0x3908F227C59DB917, 0x8AA4248C8857F9A5⟩) := by decide
theorem test_decode_unlistedBreak : decodeTableWord 16 0b0_011_0_101_0_0_000000 =
    some (.unlistedBreak ⟨0x00, false, false, .r5, false, .r3, false, 0⟩) := by decide
theorem test_decode_unlistedJmp : decodeTableWord 16 0b0_011_0_011_0_0_000001 =
    some (.unlistedJmp ⟨0x01, false, false, .r3, false, .r3, false, 0⟩) := by decide
theorem test_decode_unlistedJmp8 : decodeTableWord 16 0b1_011_0_011_0_0_000010 =
    some (.unlistedJmp8 ⟨0x02, false, false, .r3, false, .r3, true, 0⟩) := by decide
theorem test_decode_unlistedCall : decodeTableWord 16 0b1_000_0_000_0_0_000011 =
    some (.unlistedCall ⟨0x03, false, false, .r0, false, .r0, true, 0⟩) := by decide
theorem test_decode_unlistedCmpeq : decodeTableWord 16 0b0_101_1_011_0_0_000101 =
    some (.unlistedCmpeq ⟨0x05, false, false, .r3, true, .r5, false, 0⟩) := by decide
theorem test_decode_unlistedCmplte : decodeTableWord 16 0b1_101_1_101_0_0_000110 =
    some (.unlistedCmplte ⟨0x06, false, false, .r5, true, .r5, true, 0⟩) := by decide
theorem test_decode_unlistedCmpgte : decodeTableWord 16 0b1_011_1_111_0_0_000111 =
    some (.unlistedCmpgte ⟨0x07, false, false, .r7, true, .r3, true, 0⟩) := by decide
theorem test_decode_unlistedCmpulte : decodeTableWord 16 0b1_111_0_000_0_0_001000 =
    some (.unlistedCmpulte ⟨0x08, false, false, .r0, false, .r7, true, 0⟩) := by decide
theorem test_decode_unlistedCmpugte : decodeTableWord 16 0b0_001_0_001_0_0_001001 =
    some (.unlistedCmpugte ⟨0x09, false, false, .r1, false, .r1, false, 0⟩) := by decide
theorem test_decode_unlistedAshr : decodeTableWord 16 0b1_111_0_011_0_0_011001 =
    some (.unlistedAshr ⟨0x19, false, false, .r3, false, .r7, true, 0⟩) := by decide
theorem test_decode_unlistedExtndb : decodeTableWord 16 0b0_001_0_101_0_0_011010 =
    some (.unlistedExtndb ⟨0x1A, false, false, .r5, false, .r1, false, 0⟩) := by decide
theorem test_decode_unlistedExtndw : decodeTableWord 16 0b0_111_1_110_0_0_011011 =
    some (.unlistedExtndw ⟨0x1B, false, false, .r6, true, .r7, false, 0⟩) := by decide
theorem test_decode_unlistedExtndd : decodeTableWord 16 0b1_010_0_010_0_0_011100 =
    some (.unlistedExtndd ⟨0x1C, false, false, .r2, false, .r2, true, 0⟩) := by decide
theorem test_decode_unlistedMovsnw : decodeTableWord 16 0b0_010_0_111_0_0_100101 =
    some (.unlistedMovsnw ⟨0x25, false, false, .r7, false, .r2, false, 0⟩) := by decide
theorem test_decode_unlistedMovsnd : decodeTableWord 16 0b0_101_1_111_0_0_100110 =
    some (.unlistedMovsnd ⟨0x26, false, false, .r7, true, .r5, false, 0⟩) := by decide
theorem test_decode_unlistedLoadsp : decodeTableWord 16 0b0_000_0_000_0_0_101001 =
    some (.unlistedLoadsp ⟨0x29, false, false, .r0, false, .r0, false, 0⟩) := by decide
theorem test_decode_unlistedStoresp : decodeTableWord 16 0b0_010_1_001_0_0_101010 =
    some (.unlistedStoresp ⟨0x2A, false, false, .r1, true, .r2, false, 0⟩) := by decide
theorem test_decode_unlistedPop : decodeTableWord 16 0b1_000_1_011_0_0_101100 =
    some (.unlistedPop ⟨0x2C, false, false, .r3, true, .r0, true, 0⟩) := by decide
theorem test_decode_unlistedCmpieq : decodeTableWord 16 0b1_101_1_011_0_0_101101 =
    some (.unlistedCmpieq ⟨0x2D, false, false, .r3, true, .r5, true, 0⟩) := by decide
theorem test_decode_unlistedCmpilte : decodeTableWord 16 0b1_000_0_010_0_0_101110 =
    some (.unlistedCmpilte ⟨0x2E, false, false, .r2, false, .r0, true, 0⟩) := by decide
theorem test_decode_unlistedCmpigte : decodeTableWord 16 0b0_110_0_111_0_0_101111 =
    some (.unlistedCmpigte ⟨0x2F, false, false, .r7, false, .r6, false, 0⟩) := by decide
theorem test_decode_unlistedCmpiulte : decodeTableWord 16 0b1_010_0_010_0_0_110000 =
    some (.unlistedCmpiulte ⟨0x30, false, false, .r2, false, .r2, true, 0⟩) := by decide
theorem test_decode_unlistedCmpiugte : decodeTableWord 16 0b0_010_0_111_0_0_110001 =
    some (.unlistedCmpiugte ⟨0x31, false, false, .r7, false, .r2, false, 0⟩) := by decide
theorem test_decode_unlistedMovnw : decodeTableWord 16 0b0_010_1_010_0_0_110010 =
    some (.unlistedMovnw ⟨0x32, false, false, .r2, true, .r2, false, 0⟩) := by decide
theorem test_decode_unlistedMovnd : decodeTableWord 16 0b0_000_1_001_0_0_110011 =
    some (.unlistedMovnd ⟨0x33, false, false, .r1, true, .r0, false, 0⟩) := by decide
theorem test_decode_unlistedPushn : decodeTableWord 16 0b1_001_0_111_0_0_110101 =
    some (.unlistedPushn ⟨0x35, false, false, .r7, false, .r1, true, 0⟩) := by decide
theorem test_decode_unlistedPopn : decodeTableWord 16 0b1_100_1_011_0_0_110110 =
    some (.unlistedPopn ⟨0x36, false, false, .r3, true, .r4, true, 0⟩) := by decide
theorem test_decode_unlistedMovi : decodeTableWord 16 0b0_000_0_111_0_0_110111 =
    some (.unlistedMovi ⟨0x37, false, false, .r7, false, .r0, false, 0⟩) := by decide
theorem test_decode_unlistedMovin : decodeTableWord 16 0b0_101_0_111_0_0_111000 =
    some (.unlistedMovin ⟨0x38, false, false, .r7, false, .r5, false, 0⟩) := by decide
theorem test_decode_unlistedMovrel : decodeTableWord 16 0b0_100_1_011_0_0_111001 =
    some (.unlistedMovrel ⟨0x39, false, false, .r3, true, .r4, false, 0⟩) := by decide
/-- R70: under `nop` an unlisted opcode has its immediate, under `refuse` it is refused once its header is read. -/
theorem test_decode_unlisted_policies :
    decode nopPolicy [0x81, 0x00, 0x34, 0x12] = .ok (.unlistedJmp ⟨0x01, true, false, .r0, false, .r0, false, 0x1234⟩, 4) ∧
    decode nopPolicy [0x81, 0x00] = .error (.error .truncated) ∧
    decode Config.default [0x81, 0x00] = .error (.refuse (.unlistedOpcode 0x01)) := by decide
/-- R77: the only decode failure. -/
theorem test_decode_truncated :
    decode Config.default [0x8C, 0x01, 0x05] = .error (.error .truncated) ∧
    decode Config.default [0x0C] = .error (.error .truncated) ∧ decode Config.default [] = .error (.error .truncated) := by
  decide
/-- R72's sequence at the three index widths (95_test_vectors.md 1.3). -/
theorem test_decode_index_widths :
    decode Config.default [0x9D, 0x29, 0xEF, 0xCD] =
      .ok (.movbw ⟨0x1D, .r1, true, .r2, false, true, false, 0xCDEF, 0⟩, 4) ∧
    decode Config.default [0xA1, 0x29, 0xEF, 0xCD, 0xAB, 0x89] =
      .ok (.movbd ⟨0x21, .r1, true, .r2, false, true, false, 0x89ABCDEF, 0⟩, 6) ∧
    decode Config.default [0xA8, 0x29, 0xEF, 0xCD, 0xAB, 0x89, 0x67, 0x45, 0x23, 0x01] =
      .ok (.movqq ⟨0x28, .r1, true, .r2, false, true, false, 0x0123456789ABCDEF, 0⟩, 10) := by decide
/-- 95_test_vectors.md 1.1 and 1.4, encoded. -/
theorem test_encode :
    encode (.push ⟨0x2B, true, true, .r1, true, .r0, false, 0x10⟩) = [0xEB, 0x09, 0x10, 0x00] ∧
    encode (.movdw ⟨0x1F, .r1, true, .r2, true, true, true, 0x0004, 0xFFFC⟩) = [0xDF, 0xA9, 0x04, 0x00, 0xFC, 0xFF] ∧
    encode (.nop ⟨0x3F, true, true, .r7, true, .r7, true, 0⟩) = [0xFF, 0xFF, 0x00, 0x00] := by decide

/-! ## One step of each instruction -/

/-- D12, R69. -/
theorem test_nop :
    after (start Config.default [] 0x300 [0x27, 0x00] [])
      (fun t => t.pc) =
    some 0x302 := by
  decide
/-- D10, R75. -/
theorem test_nop_with_immediate :
    after (start Config.default [(.r1, 0x9)] 0x200 [0xBF, 0x00, 0x34, 0x12] [])
      (fun t => t.pc) =
    some 0x204 := by
  decide
/-- A2, R122. -/
theorem test_not :
    after (start Config.default [] 0x200 [0x8A, 0x01, 0xFF, 0x00] [])
      (fun t => (t.reg .r1, t.pc)) =
    some (0xFFFFFF00, 0x204) := by
  decide
/-- A4, R104. -/
theorem test_not_preserves_upper :
    after (start ({ Config.default with w32Upper := .preserve }) [(.r1, 0x1234567800000000)] 0x200 [0x0A, 0x21] [])
      (fun t => (t.reg .r1, t.pc)) =
    some (0x12345678FFFFFFFF, 0x202) := by
  decide
/-- A8, R123. -/
theorem test_neg_most_negative :
    after (start Config.default [(.r2, 0x8000000000000000)] 0x200 [0x4B, 0x21] [])
      (fun t => (t.reg .r1, t.pc)) =
    some (0x8000000000000000, 0x202) := by
  decide
/-- A9, R123. -/
theorem test_neg_32 :
    after (start Config.default [] 0x200 [0x8B, 0x01, 0x01, 0x00] [])
      (fun t => (t.reg .r1, t.pc)) =
    some (0xFFFFFFFF, 0x204) := by
  decide
/-- D22, R61. -/
theorem test_add_indirect_destination :
    after (start Config.default [(.r0, 0x80), (.r4, 0x3)] 0x200 [0x0C, 0x48] [(0x80, [0x04, 0x00, 0x00, 0x00])])
      (fun t => (t.mem.bytes 0x80 1, t.pc)) =
    some ([0x07], 0x202) := by
  decide
/-- A17, R125. -/
theorem test_sub_same_register :
    after (start Config.default [(.r1, 0x1234)] 0x200 [0x4D, 0x11] [])
      (fun t => (t.reg .r1, t.pc)) =
    some (0x0, 0x202) := by
  decide
/-- A18, R125. -/
theorem test_sub_32_wraps :
    after (start Config.default [(.r1, 0x0), (.r2, 0x1)] 0x200 [0x0D, 0x21] [])
      (fun t => (t.reg .r1, t.pc)) =
    some (0xFFFFFFFF, 0x202) := by
  decide
/-- A21, R126. -/
theorem test_mul_32_wraps :
    after (start Config.default [(.r1, 0x10000), (.r2, 0x10000)] 0x200 [0x0E, 0x21] [])
      (fun t => (t.reg .r1, t.pc)) =
    some (0x0, 0x202) := by
  decide
/-- A19, R126. -/
theorem test_mul_negative :
    after (start Config.default [(.r1, 0xFFFFFFFFFFFFFFFF), (.r2, 0xFFFFFFFFFFFFFFFF)] 0x200 [0x4E, 0x21] [])
      (fun t => (t.reg .r1, t.pc)) =
    some (0x1, 0x202) := by
  decide
/-- A22, R127. -/
theorem test_mulu :
    after (start Config.default [(.r1, 0xFFFFFFFF), (.r2, 0xFFFFFFFF)] 0x200 [0x0F, 0x21] [])
      (fun t => (t.reg .r1, t.pc)) =
    some (0x1, 0x202) := by
  decide
/-- A24, R128. -/
theorem test_div_toward_zero :
    after (start Config.default [(.r1, 0xFFFFFFF9), (.r2, 0x2)] 0x200 [0x10, 0x21] [])
      (fun t => (t.reg .r1, t.pc)) =
    some (0xFFFFFFFD, 0x202) := by
  decide
/-- A31, R129. -/
theorem test_divu :
    after (start Config.default [(.r1, 0xFFFFFFFF)] 0x200 [0x91, 0x01, 0x02, 0x00] [])
      (fun t => (t.reg .r1, t.pc)) =
    some (0x7FFFFFFF, 0x204) := by
  decide
/-- A32, R129. -/
theorem test_divu_by_zero :
    after (start Config.default [(.r1, 0x9)] 0x200 [0x51, 0x21] [])
      (fun t => (t.error, t.pc)) =
    some (some .divisionByZero, 0x200) := by
  decide
/-- A35, R130. -/
theorem test_mod_sign :
    after (start Config.default [(.r1, 0x8000000000000000), (.r2, 0x3)] 0x200 [0x52, 0x21] [])
      (fun t => (t.reg .r1, t.pc)) =
    some (0xFFFFFFFFFFFFFFFE, 0x202) := by
  decide
/-- A34, R130. -/
theorem test_mod_overflow :
    after (start Config.default [(.r1, 0x8000000000000000), (.r2, 0xFFFFFFFFFFFFFFFF)] 0x200 [0x52, 0x21] [])
      (fun t => (t.refused, t.pc)) =
    some (some .signedDivisionOverflow, 0x200) := by
  decide
/-- A36, R131. -/
theorem test_modu :
    after (start Config.default [(.r1, 0xFFFFFFFF)] 0x200 [0x93, 0x01, 0x0A, 0x00] [])
      (fun t => (t.reg .r1, t.pc)) =
    some (0x5, 0x204) := by
  decide
/-- A38, R132. -/
theorem test_and_immediate :
    after (start Config.default [(.r1, 0x12345678)] 0x200 [0x94, 0x01, 0xFF, 0xFF] [])
      (fun t => (t.reg .r1, t.pc)) =
    some (0x5678, 0x204) := by
  decide
/-- A39, R133. -/
theorem test_or_immediate :
    after (start Config.default [(.r1, 0x1)] 0x200 [0xD5, 0x01, 0x00, 0x80] [])
      (fun t => (t.reg .r1, t.pc)) =
    some (0x8001, 0x204) := by
  decide
/-- A41, R134. -/
theorem test_xor_memory :
    after (start Config.default [(.r1, 0x80)] 0x200 [0x56, 0x99] [(0x80, [0x01, 0x02, 0x03, 0x04, 0x05, 0x06, 0x07, 0x08])])
      (fun t => (t.mem.bytes 0x80 8, t.pc)) =
    some ([0x00, 0x00, 0x00, 0x00, 0x00, 0x00, 0x00, 0x00], 0x202) := by
  decide
/-- A42, R135. -/
theorem test_shl :
    after (start Config.default [(.r1, 0x1)] 0x200 [0x97, 0x01, 0x1F, 0x00] [])
      (fun t => (t.reg .r1, t.pc)) =
    some (0x80000000, 0x204) := by
  decide
/-- A43, R135. -/
theorem test_shl_too_large :
    after (start Config.default [(.r1, 0x1)] 0x200 [0x97, 0x01, 0x20, 0x00] [])
      (fun t => (t.refused, t.pc)) =
    some (some .shiftCountTooLarge, 0x200) := by
  decide
/-- A48, R136. -/
theorem test_shr_arith :
    after (start Config.default [(.r1, 0x8000000000000000)] 0x200 [0xD8, 0x01, 0x3F, 0x00] [])
      (fun t => (t.reg .r1, t.pc)) =
    some (0xFFFFFFFFFFFFFFFF, 0x204) := by
  decide
/-- A49, R136. -/
theorem test_shr_logical :
    after (start ({ Config.default with shrKind := .logical }) [(.r1, 0x8000000000000000)] 0x200 [0xD8, 0x01, 0x3F, 0x00] [])
      (fun t => (t.reg .r1, t.pc)) =
    some (0x1, 0x204) := by
  decide
/-- U2, R151. -/
theorem test_push_displacement :
    after (start Config.default [(.r0, 0x18), (.r1, 0x20)] 0x200 [0xEB, 0x09, 0x10, 0x00] [(0x30, [0xEF, 0xCD, 0xAB, 0x89, 0x67, 0x45, 0x23, 0x01])])
      (fun t => (t.reg .r0, t.mem.bytes 0x10 8, t.pc)) =
    some (0x10, [0xEF, 0xCD, 0xAB, 0x89, 0x67, 0x45, 0x23, 0x01], 0x204) := by
  decide
/-- U8, R150. -/
theorem test_push_reads_before_r0 :
    after (start Config.default [(.r0, 0x100), (.r1, 0x100)] 0x200 [0x6B, 0x09] [(0x100, [0x01, 0x02, 0x03, 0x04, 0x05, 0x06, 0x07, 0x08])])
      (fun t => (t.reg .r0, t.mem.bytes 0xF8 8, t.pc)) =
    some (0xF8, [0x01, 0x02, 0x03, 0x04, 0x05, 0x06, 0x07, 0x08], 0x202) := by
  decide
/-- M2, R161. -/
theorem test_movbw_sign :
    after (start ({ Config.default with movRegExt := .sign }) [(.r2, 0x80)] 0x200 [0x1D, 0x21] [])
      (fun t => (t.reg .r1, t.pc)) =
    some (0xFFFFFFFFFFFFFF80, 0x202) := by
  decide
/-- M6, R160. -/
theorem test_movbw_index_on_direct :
    after (start Config.default [(.r2, 0x7)] 0x200 [0x9D, 0x21, 0x01, 0x00] [])
      (fun t => (t.refused, t.pc)) =
    some (some .indexOnDirectOperand, 0x200) := by
  decide
/-- D14, R72. -/
theorem test_movbd :
    after (start Config.default [(.r1, 0x76543291), (.r2, 0xAB)] 0x200 [0xA1, 0x29, 0xEF, 0xCD, 0xAB, 0x89] [])
      (fun t => (t.mem.bytes 0x80 1, t.pc)) =
    some ([0xAB], 0x206) := by
  decide
/-- D16, R73. -/
theorem test_movww_both_indexes :
    after (start Config.default [(.r0, 0xF8), (.r2, 0x80)] 0x200 [0xDE, 0x8A, 0x04, 0x00, 0x02, 0x00] [(0xF8, [0x88, 0x77, 0x66, 0x55])])
      (fun t => (t.mem.bytes 0x84 2, t.pc)) =
    some ([0x66, 0x55], 0x206) := by
  decide
/-- M13, R165. -/
theorem test_movwd :
    after (start Config.default [(.r2, 0x90)] 0x200 [0x62, 0xA3, 0x08, 0x00, 0x00, 0x00] [(0x98, [0xCD, 0xAB])])
      (fun t => (t.reg .r3, t.pc)) =
    some (0xABCD, 0x206) := by
  decide
/-- M14, R166. -/
theorem test_movdw :
    after (start Config.default [(.r1, 0x80), (.r2, 0x90)] 0x200 [0xDF, 0xA9, 0x04, 0x00, 0xFC, 0xFF] [(0x8C, [0x01, 0x02, 0x03, 0x04])])
      (fun t => (t.mem.bytes 0x84 4, t.pc)) =
    some ([0x01, 0x02, 0x03, 0x04], 0x206) := by
  decide
/-- M10, R44. -/
theorem test_movdd_out_of_bounds :
    after (start Config.default [(.r2, 0x0)] 0x200 [0x63, 0xA1, 0xFF, 0xFF, 0xFF, 0xFF] [])
      (fun t => (t.error, t.pc)) =
    some (some .outOfBounds, 0x200) := by
  decide
/-- M4, R167. -/
theorem test_movdd :
    after (start Config.default [(.r1, 0x80), (.r2, 0x1122334455667788)] 0x200 [0x23, 0x29] [])
      (fun t => (t.mem.bytes 0x80 4, t.pc)) =
    some ([0x88, 0x77, 0x66, 0x55], 0x202) := by
  decide
/-- M9, R44. -/
theorem test_movqw_at_the_end :
    after (start Config.default [(.r1, 0xFF8), (.r2, 0x102030405060708)] 0x200 [0x20, 0x29] [])
      (fun t => (t.mem.bytes 0xFF8 8, t.pc)) =
    some ([0x08, 0x07, 0x06, 0x05, 0x04, 0x03, 0x02, 0x01], 0x202) := by
  decide
/-- M8, R44. -/
theorem test_movqw_past_the_end :
    after (start Config.default [(.r1, 0xFF9), (.r2, 0x1)] 0x200 [0x20, 0x29] [])
      (fun t => (t.error, t.pc)) =
    some (some .outOfBounds, 0x200) := by
  decide
/-- M15, R169. -/
theorem test_movqd :
    after (start Config.default [(.r2, 0x98)] 0x200 [0x64, 0xA3, 0xF8, 0xFF, 0xFF, 0xFF] [(0x90, [0x01, 0x02, 0x03, 0x04, 0x05, 0x06, 0x07, 0x08])])
      (fun t => (t.reg .r3, t.pc)) =
    some (0x807060504030201, 0x206) := by
  decide
/-- M16, R170. -/
theorem test_movqq :
    after (start Config.default [(.r1, 0x80), (.r2, 0x90)] 0x200 [0xE8, 0xA9, 0x10, 0x00, 0x00, 0x00, 0x00, 0x00, 0x00, 0x00, 0xF0, 0xFF, 0xFF, 0xFF, 0xFF, 0xFF, 0xFF, 0xFF] [(0x80, [0xA0, 0xA1, 0xA2, 0xA3, 0xA4, 0xA5, 0xA6, 0xA7])])
      (fun t => (t.mem.bytes 0x90 8, t.pc)) =
    some ([0xA0, 0xA1, 0xA2, 0xA3, 0xA4, 0xA5, 0xA6, 0xA7], 0x212) := by
  decide
/-- D6, R203. -/
theorem test_unlisted_before_truncation :
    after (start ({ Config.default with memSize := 0x202 }) [] 0x200 [0x81, 0x00] [])
      (fun t => (t.refused, t.pc)) =
    some (some (.unlistedOpcode 0x01), 0x200) := by
  decide
/-- D8, R70. -/
theorem test_unlisted_nop :
    after (start ({ Config.default with unlistedPolicy := .nop }) [] 0x200 [0x01, 0x00] [])
      (fun t => t.pc) =
    some 0x202 := by
  decide
/-- E4, R44. -/
theorem test_add_no_wrap :
    after (start Config.default [(.r1, 0xFFFFFFFFFFFFFFFC), (.r2, 0x1)] 0x200 [0x4C, 0x29] [])
      (fun t => (t.error, t.pc)) =
    some (some .outOfBounds, 0x200) := by
  decide
/-- A54, R203. -/
theorem test_div_read_before_zero_check :
    after (start Config.default [(.r1, 0x2000)] 0x200 [0xD0, 0x09, 0x00, 0x00] [])
      (fun t => (t.error, t.pc)) =
    some (some .outOfBounds, 0x200) := by
  decide
/-- R106: RET at 0x210. -/
theorem test_ret : after (start Config.default [] 0x210 [0x04, 0x00] []) (fun t => (t.halted, t.pc)) = some (true, 0x210) := by
  decide
/-- R70: ten of the thirty raw values, refused by default and stepped over under `nop`. -/
theorem test_unlisted_1 : ∀ raw ∈ ([0x00, 0x01, 0x02, 0x03, 0x05, 0x06, 0x07, 0x08, 0x09, 0x19] : List Byte),
    after (start Config.default [] 0x200 [raw, 0x00] []) (fun t => (t.refused, t.pc)) =
      some (some (.unlistedOpcode (raw.setWidth 6)), 0x200) ∧
    after (start nopPolicy [] 0x200 [raw, 0x00] []) (fun t => (t.refused, t.pc)) = some (none, 0x202) := by decide
/-- R70: ten of the thirty raw values, refused by default and stepped over under `nop`. -/
theorem test_unlisted_2 : ∀ raw ∈ ([0x1A, 0x1B, 0x1C, 0x25, 0x26, 0x29, 0x2A, 0x2C, 0x2D, 0x2E] : List Byte),
    after (start Config.default [] 0x200 [raw, 0x00] []) (fun t => (t.refused, t.pc)) =
      some (some (.unlistedOpcode (raw.setWidth 6)), 0x200) ∧
    after (start nopPolicy [] 0x200 [raw, 0x00] []) (fun t => (t.refused, t.pc)) = some (none, 0x202) := by decide
/-- R70: ten of the thirty raw values, refused by default and stepped over under `nop`. -/
theorem test_unlisted_3 : ∀ raw ∈ ([0x2F, 0x30, 0x31, 0x32, 0x33, 0x35, 0x36, 0x37, 0x38, 0x39] : List Byte),
    after (start Config.default [] 0x200 [raw, 0x00] []) (fun t => (t.refused, t.pc)) =
      some (some (.unlistedOpcode (raw.setWidth 6)), 0x200) ∧
    after (start nopPolicy [] 0x200 [raw, 0x00] []) (fun t => (t.refused, t.pc)) = some (none, 0x202) := by decide
/-- R29: no step after the end. -/
theorem test_stopped :
    step State.reset.halt = .fault .alreadyHalted ∧
    step (State.reset.takeError .outOfBounds) = .fault (.alreadyFailed .outOfBounds) ∧
    step (State.reset.takeRefusal .shiftCountTooLarge) = .fault (.alreadyRefused .shiftCountTooLarge) := ⟨rfl, rfl, rfl⟩
/-- R200's codes. -/
theorem test_error_codes :
    [ErrorKind.truncated, .invalidOperand, .outOfBounds, .divisionByZero].map ErrorKind.code = [1, 2, 3, 4] := by decide
/-- The host's placing: `withFetchWord` from reset runs the instruction it is given (ADD64 R1, #0xFFFF). -/
theorem test_with_fetch_word :
    after (State.reset.withFetchWord 32 0xFFFF01CC) (fun t => (t.reg .r1, t.pc)) = some (0xFFFF, 0x204) := by decide

/-! ## Witnesses: for each statement with hypotheses, a state and operands that meet them, at the boundary of each clause -/

/-- ADD32 R1, R2 at 0x200. -/
def addState : State := start Config.default [(.r1, 5), (.r2, 7)] 0x200 [0x0C, 0x21] []

/-- A running state with one NOP that ends where the region ends. -/
def lastNop : State := start Config.default [] 0xFFE [0x27, 0x00] []

/-- Registers for the boundary cases: R1 is the last address of a 4-byte access, R2 of an 8-byte access, R3 one past both. -/
def edge : State := start Config.default [(.r0, 0x18), (.r1, 0xFFC), (.r2, 0xFF8), (.r3, 0xFFD)] 0x200 [] [(0x30, [0xEF, 0xCD])]

theorem witness_RegisterWriteThenRead : RegId.r1 ≠ RegId.r0 := by decide

theorem witness_RegisterFieldsResolveInjectively :
    resolveRegister 7 = .ok .r7 ∧ (7#3).toNat = 7 ∧ 7 < 8 := by decide

theorem witness_AccessFailsExactlyOutOfBounds :
    8 ∈ [1, 2, 4, 8] ∧ edge.cfg.wf = true ∧ (0xFF8#64).toNat + 8 ≤ edge.cfg.memSize ∧
      edge.cfg.memSize < (0xFF9#64).toNat + 8 ∧ 2 ^ 64 < (0xFFFFFFFFFFFFFFFF#64).toNat + 8 := by decide

theorem witness_ReadIsLittleEndian :
    4 ∈ [1, 2, 4, 8] ∧ (0xFFC#64).toNat + 4 ≤ edge.cfg.memSize ∧ edge.cfg.memSize < (0xFFD#64).toNat + 4 ∧ 3 < 4 := by decide

theorem witness_WriteSetsItsBytesOnly :
    4 ∈ [1, 2, 4, 8] ∧ Memory.wf edge.mem = true ∧ (0xFFC#64).toNat + 4 ≤ edge.cfg.memSize ∧
      edge.cfg.memSize < (0xFFD#64).toNat + 4 ∧ 0xFFB < (0xFFC#64).toNat ∧ (0xFFC#64).toNat + 4 ≤ 0x1000 := by decide

theorem witness_ReadAfterWrite :
    2 ∈ [1, 2, 4, 8] ∧ Memory.wf edge.mem = true ∧ memWrite edge 0x31 2 0xAABB = .ok (edge.store 0x31 2 0xAABB) ∧
      (0x30#64).toNat + 1 ≤ (0x31#64).toNat ∧ (0x31#64).toNat + 2 ≤ (0x33#64).toNat := by decide

theorem witness_SlotValueCases :
    (32 = 32 ∨ 32 = 64) ∧ (⟨0x0C, true, false, .r1, false, .r2, true, 0xFFFF⟩ : GenericRec).isImm = true ∧
      (⟨0x0C, false, true, .r1, false, .r2, true, 0⟩ : GenericRec).isImm = false := by decide

theorem witness_Operand1ReadAndWrite :
    (64 = 32 ∨ 64 = 64) ∧ (⟨0x0C, false, true, .r1, true, .r2, false, 0⟩ : GenericRec).op1Indirect = true ∧
      (⟨0x0C, false, false, .r1, false, .r2, false, 0⟩ : GenericRec).op1Indirect = false := by decide

theorem witness_MovRegisterExtension : 1 ∈ [1, 2, 4, 8] ∧ 8 ∈ [1, 2, 4, 8] := by decide

theorem witness_DecodeOfEncodeIsIdentity_generic :
    (Instr.push ⟨0x2B, true, true, .r1, true, .r7, true, 0xFFFF⟩).wf Config.default = true := by decide
theorem witness_DecodeOfEncodeIsIdentity_mov :
    (Instr.movqq ⟨0x28, .r1, true, .r2, true, true, true, 0xFFFFFFFFFFFFFFFF, 1⟩).wf Config.default = true := by
  decide
theorem witness_DecodeOfEncodeIsIdentity_unlisted :
    (Instr.unlistedJmp ⟨0x01, true, false, .r1, true, .r2, true, 0x1234⟩).wf nopPolicy = true := by decide

theorem witness_EncodeOfDecodeIsIdentity :
    decode Config.default [0x0C, 0x21] = .ok (.add ⟨0x0C, false, false, .r1, false, .r2, false, 0⟩, 2) := by
  decide

theorem witness_DecodedInstructionsAreWellFormed :
    decode Config.default [0xBF, 0x00, 0xFF, 0xFF, 0x99] =
      .ok (.nop ⟨0x3F, true, false, .r0, false, .r0, false, 0xFFFF⟩, 4) := by decide

/-- The first byte 0x81 is refused; 0x8C calls for 4 bytes, given one too few and just enough. -/
theorem witness_DecodingFailsOnlyWhenTruncated :
    (Config.default.unlistedPolicy = .refuse ∧ ∃ op, Config.default.resolveOpcode ((0x81#8).setWidth 6) = .unlisted op) ∧
      ¬ (Config.default.unlistedPolicy = .refuse ∧ ∃ op, Config.default.resolveOpcode ((0x8C#8).setWidth 6) = .unlisted op) ∧
      ¬ (nopPolicy.unlistedPolicy = .refuse ∧ ∃ op, nopPolicy.resolveOpcode ((0x81#8).setWidth 6) = .unlisted op) ∧
      2 + ([0x05] : List Byte).length < lengthOfFirstByte Config.default 0x8C ∧
      lengthOfFirstByte Config.default 0x8C ≤ 2 + ([0x05, 0x00] : List Byte).length :=
  ⟨⟨rfl, .jmp, rfl⟩, fun ⟨_, _, h⟩ => (nomatch h), fun ⟨h, _⟩ => absurd h (by decide), by decide, by decide⟩

theorem witness_DecoderReadsOnlyItsBytes :
    decode Config.default [0x9D, 0x29, 0xEF, 0xCD, 0x55] =
      .ok (.movbw ⟨0x1D, .r1, true, .r2, false, true, false, 0xCDEF, 0⟩, 4) := by decide

theorem witness_StepRunsTheDecodedInstruction :
    addState.Running ∧ decode addState.cfg addState.window = .ok (.add ⟨0x0C, false, false, .r1, false, .r2, false, 0⟩, 2) := by
  refine ⟨⟨?_, ?_, ?_⟩, ?_⟩ <;> decide
theorem witness_StepRunsTheDecodedInstruction_error :
    (start Config.default [] 0x1000 [] []).Running ∧
      decode (start Config.default [] 0x1000 [] []).cfg (start Config.default [] 0x1000 [] []).window =
        .error (.error .truncated) := by
  refine ⟨⟨?_, ?_, ?_⟩, ?_⟩ <;> decide
theorem witness_StepRunsTheDecodedInstruction_refuse :
    (start Config.default [] 0xFFE [0x81, 0x00] []).Running ∧
      decode (start Config.default [] 0xFFE [0x81, 0x00] []).cfg (start Config.default [] 0xFFE [0x81, 0x00] []).window =
        .error (.refuse (.unlistedOpcode 0x01)) := by
  refine ⟨⟨?_, ?_, ?_⟩, ?_⟩ <;> decide

theorem witness_FetchWindowIsMemoryAtPc :
    17 < addState.window.length ∧ lastNop.window.length = 2 ∧ lastNop.pc.toNat + 2 ≤ lastNop.cfg.memSize ∧
      (start Config.default [] 0xFFF [] []).cfg.memSize < (start Config.default [] 0xFFF [] []).pc.toNat + 2 ∧
      lastNop.pc.toNat + lengthOfFirstByte lastNop.cfg (Memory.read lastNop.mem lastNop.pc.toNat) ≤ lastNop.cfg.memSize ∧
      (start Config.default [] 0xFFE [0xA7, 0x00] []).cfg.memSize <
        0xFFE + lengthOfFirstByte Config.default (Memory.read (start Config.default [] 0xFFE [0xA7, 0x00] []).mem 0xFFE) := by
  decide
/-- The policy clauses: JMP's value in the region's last two bytes, refused; NOP there, not refused. -/
theorem witness_FetchWindowIsMemoryAtPc_policy :
    ((start Config.default [] 0xFFE [0x81, 0x00] []).cfg.unlistedPolicy = .refuse ∧
      ∃ op, Config.default.resolveOpcode
        ((Memory.read (start Config.default [] 0xFFE [0x81, 0x00] []).mem 0xFFE).setWidth 6) = .unlisted op) ∧
    ¬ (lastNop.cfg.unlistedPolicy = .refuse ∧
      ∃ op, lastNop.cfg.resolveOpcode ((Memory.read lastNop.mem lastNop.pc.toNat).setWidth 6) = .unlisted op) :=
  ⟨⟨rfl, .jmp, by decide⟩, fun ⟨_, _, h⟩ => nomatch (show Opcode.generic .nop = .unlisted _ from h)⟩

theorem witness_StoresAreSeenByFetch :
    2 ∈ [1, 2, 4, 8] ∧ Memory.wf addState.mem = true ∧
      memWrite addState 0x201 2 0x1131 = .ok (addState.store 0x201 2 0x1131) ∧
      1 < (addState.store 0x201 2 0x1131).window.length ∧ 3 < (addState.store 0x201 2 0x1131).window.length := by decide

theorem witness_RunningStatesAndOnlyTheyStep :
    addState.Running ∧ ¬ addState.halt.Running ∧ ¬ (addState.takeError .truncated).Running ∧
      ¬ (addState.takeRefusal .shiftCountTooLarge).Running := by
  refine ⟨⟨?_, ?_, ?_⟩, fun h => ?_, fun h => ?_, fun h => ?_⟩
  · decide
  · decide
  · decide
  · exact absurd h.1 (by decide)
  · exact absurd h.2.1 (by decide)
  · exact absurd h.2.2 (by decide)

theorem witness_StepKeepsInvariant :
    addState.Inv ∧ after addState (fun t => t.reg .r1) = some 12 := by
  refine ⟨⟨?_, ?_, ?_, ?_, ?_⟩, ?_⟩ <;> decide

/-- Two cells for the region's last address, one just outside it. -/
def overlap : List Host.Cell := [(0xFFF, 1), (0x1000, 3), (0xFFF, 2)]

/-- The last cell for 0xFFF is preceded by another; 0xFFE has none; 0x1000 is outside the region. -/
theorem witness_LaunchMeetsInvariant :
    nopPolicy.wf = true ∧ overlap = [(0xFFF, 1), (0x1000, 3)] ++ (0xFFF, 2) :: [] ∧
      (∀ cell ∈ ([] : List Host.Cell), cell.1 ≠ 0xFFF) ∧ 0xFFF < nopPolicy.memSize ∧
      (∀ cell ∈ overlap, cell.1 ≠ 0xFFE) ∧ nopPolicy.memSize ≤ 0x1000 := by decide
/-- R240: the image's last cell for an address stands, and a cell outside the region is not loaded. -/
theorem test_launch_memory :
    (State.launch nopPolicy State.reset.regs overlap 0x200).mem = [(0xFFF, 2)] := by decide

theorem witness_ProgramCounterAdvancesByLength :
    after addState (fun t => (t.halted, t.error, t.refused, t.pc)) = some (false, none, none, 0x202) ∧
      after (start Config.default [] 0x200 [0x04, 0x00] []) (fun t => (t.halted, t.pc)) = some (true, 0x200) := by decide

theorem witness_ErrorsChangeNothingElse :
    after (start Config.default [] 0x1000 [] []) (fun t => t.error) = some (some .truncated) ∧
      after (start Config.default [(.r1, 9)] 0x200 [0x51, 0x21] []) (fun t => t.error) = some (some .divisionByZero) := by decide

theorem witness_RefusalsChangeNothingElse :
    after (start Config.default [(.r1, 1)] 0x200 [0xD7, 0x01, 0x40, 0x00] []) (fun t => t.refused) =
      some (some .shiftCountTooLarge) := by decide

theorem witness_OnlyRetHalts :
    after (start Config.default [] 0x200 [0x04, 0x00] []) (fun t => t.halted) = some true ∧
      (start Config.default [] 0x200 [0x04, 0x00] []).fetch =
        .ok (.ret ⟨0x04, false, false, .r0, false, .r0, false, 0⟩, 2) := by decide

theorem witness_ErrorsAndRefusalsByInstruction :
    addState.error = none ∧ addState.refused = none ∧
      exec (.div ⟨0x10, false, false, .r1, false, .r3, false, 0⟩) addState = .next (addState.takeError .divisionByZero) ∧
      exec (.push ⟨0x2B, false, false, .r0, false, .r3, false, 0⟩) addState =
        .next (addState.takeRefusal .pushOfStackPointer) := ⟨by decide, by decide, rfl, rfl⟩

theorem witness_NopOnlyAdvances :
    lastNop.Running ∧ lastNop.fetch = .ok (.nop ⟨0x27, false, false, .r0, false, .r0, false, 0⟩, 2) ∧
      lastNop.pc.toNat + 2 ≤ lastNop.cfg.memSize ∧
      lastNop.cfg.opcodeMap.lookup ((Memory.read lastNop.mem lastNop.pc.toNat).setWidth 6) = none := by
  refine ⟨⟨?_, ?_, ?_⟩, ?_, ?_, ?_⟩ <;> decide

theorem witness_RetHalts :
    (start Config.default [] 0x200 [0x84, 0x7F, 0x01, 0x02] []).Running ∧
      (start Config.default [] 0x200 [0x84, 0x7F, 0x01, 0x02] []).fetch =
        .ok (.ret ⟨0x04, true, false, .r7, true, .r7, false, 0x0201⟩, 4) := by
  refine ⟨⟨?_, ?_, ?_⟩, ?_⟩ <;> decide

theorem witness_UnlistedIsNopUnderNopPolicy :
    Instr.unlistedPop ∈ unlistedInstrs ∧ (start nopPolicy [] 0x200 [0x2C, 0x01] []).cfg.unlistedPolicy = .nop ∧
      (start nopPolicy [] 0x200 [0x2C, 0x01] []).Running ∧
      (start nopPolicy [] 0x200 [0x2C, 0x01] []).fetch =
        .ok (.unlistedPop ⟨0x2C, false, false, .r1, false, .r0, false, 0⟩, 2) := by
  refine ⟨by simp [unlistedInstrs], by decide, ⟨?_, ?_, ?_⟩, ?_⟩ <;> decide

theorem witness_UnlistedIsRefusedUnderRefusePolicy :
    Instr.unlistedBreak ∈ unlistedInstrs ∧ (start Config.default [] 0xFFE [0x80, 0x00] []).Running ∧
      (start Config.default [] 0xFFE [0x80, 0x00] []).cfg.unlistedPolicy = .refuse ∧
      (start Config.default [] 0xFFE [0x80, 0x00] []).pc.toNat + 2 ≤ 0x1000 ∧
      Config.default.resolveOpcode
        ((Memory.read (start Config.default [] 0xFFE [0x80, 0x00] []).mem 0xFFE).setWidth 6) = .unlisted .break_ := by
  refine ⟨by simp [unlistedInstrs], ⟨?_, ?_, ?_⟩, ?_, ?_, ?_⟩ <;> decide

theorem witness_ControlFrame :
    Instr.unlistedMovrel ∈ Instr.nop :: Instr.ret :: unlistedInstrs ∧
      exec (.unlistedMovrel ⟨0x39, false, false, .r0, false, .r0, false, 0⟩) addState =
        .next (addState.takeRefusal (.unlistedOpcode 0x39)) := ⟨by simp [unlistedInstrs], rfl⟩

/-! ### ALU: operands in a register, as an immediate, in memory at the last address; the condition of each function -/

/-- Operand2 immediate, operand1 a register. -/
theorem witness_alu_direct :
    SlotReady edge ⟨0x0C, true, false, .r1, false, .r2, false, 0xFFFF⟩ .r2 false ∧
      Op1Ready edge ⟨0x0C, true, false, .r1, false, .r2, false, 0xFFFF⟩ :=
  ⟨fun h => absurd h (by decide), fun h => absurd h (by decide)⟩

/-- Both operands in memory, at the last addresses of a 4-byte access (UnaryResults, AddSubResults, MultiplyResults, BitwiseResults). -/
theorem witness_alu_indirect :
    SlotReady edge ⟨0x0C, true, false, .r1, true, .r2, true, 4⟩ .r2 true ∧
      Op1Ready edge ⟨0x0C, true, false, .r1, true, .r2, true, 4⟩ :=
  ⟨fun _ => by unfold InBounds; decide, fun _ => by unfold InBounds; decide⟩

/-- R1 and R2 as the operands of a direct ALU form of each width. -/
def pair (a b : Word) : State := start Config.default [(.r1, a), (.r2, b)] 0x200 [] []
def direct (is64 : Bool) : GenericRec := ⟨0, false, is64, .r1, false, .r2, false, 0⟩

theorem direct_ready (s : State) (is64 : Bool) : SlotReady s (direct is64) .r2 false ∧ Op1Ready s (direct is64) :=
  ⟨fun h => absurd h (by decide), fun h => absurd h (by simp [direct])⟩

/-- SignedDivisionResults: -2^31 + 1 by -1 is outside the overflowing case. -/
theorem witness_SignedDivisionResults :
    (SlotReady (pair 0x80000001 0xFFFFFFFF) (direct false) .r2 false ∧ Op1Ready (pair 0x80000001 0xFFFFFFFF) (direct false)) ∧
      slotWord (pair 0x80000001 0xFFFFFFFF) (direct false) .r2 false ≠ 0 ∧
      ¬ ((op1Word (pair 0x80000001 0xFFFFFFFF) (direct false)).toInt = -(2 ^ (32 - 1)) ∧
        (slotWord (pair 0x80000001 0xFFFFFFFF) (direct false) .r2 false).toInt = -1) :=
  ⟨direct_ready _ _, by decide, by decide⟩

theorem witness_SignedDivisionIdentity :
    (32 = 32 ∨ 32 = 64) ∧ aluDiv 32 0xFFFFFFF9#32 2#32 = .ok 0xFFFFFFFD#32 ∧ aluMod 32 0xFFFFFFF9#32 2#32 = .ok 0xFFFFFFFF#32 := by
  decide

theorem witness_UnsignedDivisionResults :
    (SlotReady (pair 7 1) (direct true) .r2 false ∧ Op1Ready (pair 7 1) (direct true)) ∧
      slotWord (pair 7 1) (direct true) .r2 false ≠ 0 := ⟨direct_ready _ _, by decide⟩

/-- ShiftResults: the largest count that is not refused, at each width. -/
theorem witness_ShiftResults :
    (SlotReady (pair 7 31) (direct false) .r2 false ∧ Op1Ready (pair 7 31) (direct false)) ∧
      (slotWord (pair 7 31) (direct false) .r2 false).toNat < 32 ∧
      (slotWord (pair 7 63) (direct true) .r2 false).toNat < 64 := ⟨direct_ready _ _, by decide, by decide⟩

/-- DivisionByZeroIsTaken: a 32-bit divisor with a nonzero upper half of its register (E8). -/
theorem witness_DivisionByZeroIsTaken :
    Instr.modu ∈ [Instr.div, Instr.divu, Instr.mod, Instr.modu] ∧
      (SlotReady (pair 0x10 0xFFFFFFFF00000000) (direct false) .r2 false ∧
        Op1Ready (pair 0x10 0xFFFFFFFF00000000) (direct false)) ∧
      slotWord (pair 0x10 0xFFFFFFFF00000000) (direct false) .r2 false = 0 := ⟨by simp, direct_ready _ _, by decide⟩

theorem witness_SignedOverflowIsRefused :
    Instr.mod ∈ [Instr.div, Instr.mod] ∧
      (SlotReady (pair 0x80000000 0xFFFFFFFF) (direct false) .r2 false ∧ Op1Ready (pair 0x80000000 0xFFFFFFFF) (direct false)) ∧
      (op1Word (pair 0x80000000 0xFFFFFFFF) (direct false)).toInt = -(2 ^ (32 - 1)) ∧
      (slotWord (pair 0x80000000 0xFFFFFFFF) (direct false) .r2 false).toInt = -1 :=
  ⟨by simp, direct_ready _ _, by decide, by decide⟩

theorem witness_LargeShiftsAreRefused :
    Instr.shr ∈ [Instr.shl, Instr.shr] ∧
      (SlotReady (pair 1 32) (direct false) .r2 false ∧ Op1Ready (pair 1 32) (direct false)) ∧
      32 ≤ (slotWord (pair 1 32) (direct false) .r2 false).toNat ∧
      64 ≤ (slotWord (pair 1 64) (direct true) .r2 false).toNat := ⟨by simp, direct_ready _ _, by decide, by decide⟩

/-- AluOutOfBoundsIsTaken: operand2, then operand1, one past the last address. -/
theorem witness_AluOutOfBoundsIsTaken :
    Instr.shr ∈ aluInstrs ∧ ¬ SlotReady edge ⟨0x18, false, false, .r1, false, .r3, true, 0⟩ .r3 true ∧
      ¬ Op1Ready edge ⟨0x18, false, false, .r3, true, .r1, false, 0⟩ :=
  ⟨by simp [aluInstrs], fun h => absurd (h rfl) (by unfold InBounds; decide),
    fun h => absurd (h rfl) (by unfold InBounds; decide)⟩

/-- AluFrame: a register destination, a memory destination, and bytes on both sides of it. -/
theorem witness_AluFrame :
    Instr.add ∈ aluInstrs ∧ Memory.wf edge.mem = true ∧
      exec (.add ⟨0x0C, true, false, .r4, false, .r0, false, 3⟩) edge = .next (edge.setReg .r4 3) ∧
      exec (.add ⟨0x0C, true, false, .r1, true, .r0, false, 3⟩) edge = .next (edge.store 0xFFC 4 3) ∧
      0xFFB < (edge.reg .r1).toNat ∧ (edge.reg .r1).toNat + 4 ≤ 0x1000 :=
  ⟨by simp [aluInstrs], by decide, rfl, rfl, by decide, by decide⟩

theorem witness_RegisterFormsIgnoreMemory :
    Instr.xor ∈ aluInstrs ∧ (⟨0x16, false, true, .r1, false, .r1, false, 0⟩ : GenericRec).op1Indirect = false ∧
      (⟨0x16, false, true, .r1, false, .r1, false, 0⟩ : GenericRec).op2Indirect = false := ⟨by simp [aluInstrs], rfl, rfl⟩

/-! ### PUSH -/

/-- PushStoresAndDecrements: R0 at the region's end (U14), and the lowest R0 that a 4-byte push admits. -/
theorem witness_PushStoresAndDecrements :
    RegId.r1 ≠ .r0 ∧
      SlotReady (start Config.default [(.r0, 0x1000), (.r1, 5)] 0x200 [] []) ⟨0x2B, false, false, .r1, false, .r0, false, 0⟩
        .r1 false ∧
      InBounds (start Config.default [(.r0, 0x1000), (.r1, 5)] 0x200 [] []) (0x1000 - BitVec.ofNat 64 4) 4 ∧
      InBounds (start Config.default [(.r0, 4), (.r1, 5)] 0x200 [] []) (4 - BitVec.ofNat 64 4) 4 :=
  ⟨by decide, fun h => absurd h (by decide), by unfold InBounds; decide, by unfold InBounds; decide⟩

theorem witness_PushSourceTests :
    (start Config.default [(.r0, 0x14), (.r1, 0x01234567)] 0x200 [] []).reg .r0 = 0x14 ∧
      (start Config.default [(.r0, 0x14), (.r1, 0x01234567)] 0x200 [] []).reg .r1 = 0x01234567 ∧
      memRead (start Config.default [(.r0, 0x18), (.r1, 0x20)] 0x200 []
        [(0x30, [0xEF, 0xCD, 0xAB, 0x89, 0x67, 0x45, 0x23, 0x01])]) 0x30 8 = .ok 0x0123456789ABCDEF ∧
      Memory.wf (start Config.default [(.r0, 0x18), (.r1, 0x20)] 0x200 []
        [(0x30, [0xEF, 0xCD, 0xAB, 0x89, 0x67, 0x45, 0x23, 0x01])]).mem = true := by decide

theorem witness_PushOfR0IsRefused : (⟨0x2B, true, false, .r0, false, .r0, false, 5⟩ : GenericRec).operand1 = .r0 := rfl

/-- PushOutOfBoundsIsTaken: an unreadable operand (U15), and R0 = 3, which wraps (U13's case). -/
theorem witness_PushOutOfBoundsIsTaken :
    RegId.r3 ≠ .r0 ∧ ¬ SlotReady edge ⟨0x2B, false, false, .r3, true, .r0, false, 0⟩ .r3 true ∧
      ¬ InBounds (start Config.default [(.r0, 3)] 0x200 [] []) (3 - BitVec.ofNat 64 4) 4 :=
  ⟨by decide, fun h => absurd (h rfl) (by unfold InBounds; decide), by unfold InBounds; decide⟩

theorem witness_PushFrame :
    Memory.wf edge.mem = true ∧
      exec (.push ⟨0x2B, false, false, .r1, false, .r0, false, 0⟩) edge =
        .next ((edge.store 0x14 4 0xFFC).setReg .r0 0x14) ∧ RegId.r1 ≠ .r0 ∧ 0x13 < (0x14#64).toNat ∧
      (0x14#64).toNat + 4 ≤ 0x18 := ⟨by decide, rfl, by decide, by decide, by decide⟩

/-! ### MOV -/

/-- MovResults: both operands indexed, the destination at the last address of an 8-byte access (R2 + 0), the source at R1 - 4. -/
theorem witness_MovResults :
    ((true = true → true = true) ∧ (true = true → true = true)) ∧
      MovSourceReady edge 8 8 ⟨0x28, .r2, true, .r1, true, true, true, 0, 0xFFFFFFFFFFFFFFFC⟩ ∧
      MovDestReady edge 8 8 ⟨0x28, .r2, true, .r1, true, true, true, 0, 0xFFFFFFFFFFFFFFFC⟩ :=
  ⟨⟨id, id⟩, fun _ => by unfold InBounds; decide, fun _ => by unfold InBounds; decide⟩

/-- MovResults: a direct source and destination. -/
theorem witness_MovResults_direct :
    MovSourceReady edge 1 2 ⟨0x1D, .r4, false, .r1, false, false, false, 0, 0⟩ ∧
      MovDestReady edge 1 2 ⟨0x1D, .r4, false, .r1, false, false, false, 0, 0⟩ :=
  ⟨fun h => absurd h (by decide), fun h => absurd h (by decide)⟩

/-- MovIndexIsSignedDisplacement: the largest index that adds and the smallest that subtracts, at 2 bytes. -/
theorem witness_MovIndexIsSignedDisplacement :
    2 ∈ [2, 4, 8] ∧ (0x7FFF#64).toNat < 2 ^ (8 * 2 - 1) ∧ ¬ (0x8000#64).toNat < 2 ^ (8 * 2 - 1) ∧
      (0xFFFF#64).toNat < 2 ^ (8 * 2) := by decide

theorem witness_IndexOnDirectOperandIsRefused :
    ((Instr.movbw, 1, 2) : (MovRec → Instr) × Nat × Nat) ∈ movInstrs ∧
      (⟨0x1D, .r1, false, .r2, false, true, false, 1, 0⟩ : MovRec).isOp1Idx = true ∧
      (⟨0x1D, .r2, false, .r1, false, false, true, 0, 1⟩ : MovRec).isOp2Idx = true := ⟨by simp [movInstrs], rfl, rfl⟩

/-- MovOutOfBoundsIsTaken: the source, then the destination, one past the last address. -/
theorem witness_MovOutOfBoundsIsTaken :
    ((Instr.movdd, 4, 4) : (MovRec → Instr) × Nat × Nat) ∈ movInstrs ∧
      ¬ MovSourceReady edge 4 4 ⟨0x23, .r1, false, .r3, true, false, false, 0, 0⟩ ∧
      ¬ MovDestReady edge 4 4 ⟨0x23, .r1, true, .r0, false, true, false, 1, 0⟩ :=
  ⟨by simp [movInstrs], fun h => absurd (h rfl) (by unfold InBounds; decide),
    fun h => absurd (h rfl) (by unfold InBounds; decide)⟩

/-- MovFrame: a register destination, a memory destination, and bytes on both sides of it. -/
theorem witness_MovFrame :
    ((Instr.movdd, 4, 4) : (MovRec → Instr) × Nat × Nat) ∈ movInstrs ∧ Memory.wf edge.mem = true ∧
      exec (.movdd ⟨0x23, .r4, false, .r1, false, false, false, 0, 0⟩) edge = .next (edge.setReg .r4 0xFFC) ∧
      exec (.movdd ⟨0x23, .r1, true, .r2, false, false, false, 0, 0⟩) edge = .next (edge.store 0xFFC 4 0xFF8) ∧
      0xFFB < (0xFFC#64).toNat ∧ (0xFFC#64).toNat + 4 ≤ 0x1000 :=
  ⟨by simp [movInstrs], by decide, rfl, rfl, by decide, by decide⟩

end Sys2Proof.Tests
end

/-! ## Proofs: the register file and the register fields (10_state.md R22, R23) -/

namespace Sys2Proof

/-- `resolve_register` is the inverse of the 3-bit field: a number resolves to a register exactly when it is that register's field. -/
theorem resolveRegister_eq_ok_iff {n : Nat} {r : RegId} : resolveRegister n = .ok r ↔ n = r.field.toNat := by
  constructor
  · intro h
    unfold resolveRegister at h
    split at h <;> cases h <;> rfl
  · rintro rfl
    exact resolveRegister_field r

/-- Beyond the eight registers: the contract's error (60_exceptions.md R201). -/
theorem resolveRegister_of_seven_lt {n : Nat} (h : 7 < n) : resolveRegister n = .error .invalidOperand := by
  obtain ⟨k, rfl⟩ := Nat.exists_eq_add_of_le' h
  rfl

end Sys2Proof

namespace Sys2Proof.Machine

/-- Settles O1, by the register file's read-after-write lemma; that the other fields stay is the definition of `setReg`. -/
theorem registerWriteThenRead : Obligations.RegisterWriteThenRead := by
  intro s r q v
  refine ⟨?same, fun hne => ?other, ?frame⟩
  case same => rw [State.reg_setReg, if_pos rfl]
  case other => rw [State.reg_setReg, if_neg hne]
  case frame => rfl

/-- Settles O2: `resolve_register` inverts the field, so two numbers that resolve to one register are both its field. -/
theorem registerFieldsResolveInjectively : Obligations.RegisterFieldsResolveInjectively := by
  refine ⟨?table, fun m n r hm hn => ?injective, fun b => ?total, fun n => resolveRegister_of_seven_lt⟩
  case table => exact ⟨rfl, rfl, rfl, rfl, rfl, rfl, rfl, rfl⟩
  case injective => exact (resolveRegister_eq_ok_iff.mp hm).trans (resolveRegister_eq_ok_iff.mp hn).symm
  case total =>
    obtain ⟨r, rfl⟩ := exists_field b
    exact ⟨r, resolveRegister_field r⟩

end Sys2Proof.Machine

/-! ## Proofs: the bytes of a read, and the fetch window after a store (20_memory.md R42, R53) -/

namespace Sys2Proof.Machine

/-- Byte `k` of a word is its little-endian digit `k` (20_memory.md R41). -/
theorem extractLsb'_byte (v : Word) (k : Nat) : v.extractLsb' (8 * k) 8 = BitVec.ofNat 8 (v.toNat / 256 ^ k) := by
  apply BitVec.eq_of_toNat_eq
  rw [BitVec.extractLsb'_toNat, BitVec.toNat_ofNat, Nat.shiftRight_eq_div_pow, Nat.pow_mul]

/-- No access is wider than a word (20_memory.md R42, R43). -/
theorem accessWidth_le {n : Nat} (hn : n ∈ [1, 2, 4, 8]) : n ≤ 8 := by
  simp only [List.mem_cons, List.not_mem_nil, or_false] at hn
  omega

/-- A loaded number of at most eight bytes is the value of its word. -/
theorem toNat_ofNat_load (s : State) (a : Word) {n : Nat} (hn : n ≤ 8) :
    (BitVec.ofNat 64 (s.load a n)).toNat = s.load a n := by
  have hword : 2 ^ (8 * n) ≤ 2 ^ 64 := Nat.pow_le_pow_right Nat.two_pos (by omega)
  rw [BitVec.toNat_ofNat, Nat.mod_eq_of_lt (lt_of_lt_of_le (load_lt s a n) hword)]

/-- Digit `k` of a loaded number is the byte at `a + k` (20_memory.md R42). -/
theorem ofNat_load_div (s : State) (a : Word) {n k : Nat} (hk : k < n) :
    BitVec.ofNat 8 (s.load a n / 256 ^ k) = Memory.read s.mem (a.toNat + k) := by
  rw [State.load, ofNat_leNat_div _ k (by simpa using hk), Memory.getElem_bytes]

/-- A successful store was in bounds and left the stored bytes (20_memory.md R43). -/
theorem memWrite_eq_ok_iff {s t : State} {a v : Word} {n : Nat} :
    memWrite s a n v = .ok t ↔ InBounds s a n ∧ t = s.store a n v.toNat := by
  by_cases hb : InBounds s a n
  · simp [memWrite_inBounds hb, hb, eq_comm]
  · simp [memWrite_outOfBounds hb, hb]

/-- A byte after a store: the stored one inside the stored range, the one before elsewhere (20_memory.md R43). -/
theorem read_store {s : State} (h : Memory.wf s.mem = true) (a v : Word) (n j : Nat) :
    Memory.read (s.store a n v.toNat).mem j =
      if a.toNat ≤ j ∧ j < a.toNat + n then v.extractLsb' (8 * (j - a.toNat)) 8 else Memory.read s.mem j := by
  split
  case isTrue hin =>
    rw [State.store_mem, Memory.read_writeBytes _ _ _ h, dif_pos ⟨hin.1, by rw [length_leBytes]; omega⟩,
      getElem_leBytes, extractLsb'_byte]
  case isFalse hout => exact read_store_outside h (by omega)

/-- Byte `k` of the fetch window is the byte at `pc + k` (20_memory.md R55). -/
theorem State.getElem_window (s : State) (k : Nat) (h : k < s.window.length) :
    s.window[k] = Memory.read s.mem (s.pc.toNat + k) :=
  Memory.getElem_bytes s.mem s.pc.toNat _ k h

/-- Settles O4: the value read is the loaded number, whose digits are the bytes of memory. -/
theorem readIsLittleEndian : Obligations.ReadIsLittleEndian := by
  intro s addr n hn
  have hval := toNat_ofNat_load s addr (accessWidth_le hn)
  refine ⟨fun hout => memRead_outOfBounds (Nat.not_le_of_lt hout), fun hin => ⟨_, memRead_inBounds hin, ?below, ?bytes⟩⟩
  case below =>
    rw [hval]
    exact load_lt s addr n
  case bytes =>
    intro k hk
    rw [extractLsb'_byte, hval, ofNat_load_div s addr hk]

/-- Settles O18: the window reads the memory that the store left, byte by byte. -/
theorem storesAreSeenByFetch : Obligations.StoresAreSeenByFetch := by
  intro s t addr v n _ hwf hwrite u hmem k hk
  obtain ⟨-, rfl⟩ := memWrite_eq_ok_iff.mp hwrite
  rw [State.getElem_window, hmem, read_store hwf]

end Sys2Proof.Machine

/-! ## Proofs: a step by its fetch, the generic format at `pc`, and NOP (40_execution_control.md R100, R105) -/

namespace Sys2Proof

/-- A raw value with no assigned meaning is NOP (30_encoding.md R69). -/
theorem Config.resolveOpcode_of_lookup_none {c : Config} {raw : BitVec 6} (h : c.opcodeMap.lookup raw = none) :
    c.resolveOpcode raw = .generic .nop := by
  rw [Config.resolveOpcode, h, Option.getD_none]

/-- Only an unlisted opcode is refused (30_encoding.md R70). -/
theorem Config.refusesRaw_of_generic {c : Config} {raw : BitVec 6} {op : GenericOp}
    (h : c.resolveOpcode raw = .generic op) : c.refusesRaw raw = false := by
  rw [Config.refusesRaw, h]

variable {c : Config} {b0 b1 : Byte} {rest : List Byte} {op : GenericOp}

/-- A first byte whose raw value is a generic opcode selects the generic format (30_encoding.md R62, R74). -/
theorem decode_cons_of_generic (hop : c.resolveOpcode (b0.setWidth 6) = .generic op) :
    ∃ ra rb, decode c (b0 :: b1 :: rest) =
      ((decodeGeneric (headerWord b0 b1) ra rb rest).map fun p => (op.instr p.1, p.2)).mapError .error := by
  rw [← headerRaw_headerWord b0 b1] at hop
  obtain ⟨ra, rb, -, -, hd⟩ := decode_cons (Config.refusesRaw_of_generic hop) rest
  exact ⟨ra, rb, by rw [hd, decodeBody, hop]⟩

theorem decode_generic_truncated (hop : c.resolveOpcode (b0.setWidth 6) = .generic op)
    (hl : 2 + rest.length < genericLen (b0.getLsbD 7)) :
    decode c (b0 :: b1 :: rest) = .error (.error .truncated) := by
  obtain ⟨ra, rb, hd⟩ := decode_cons_of_generic hop
  rw [← headerM7_headerWord b0 b1] at hl
  rw [hd, decodeGeneric_truncated hl]
  rfl

theorem decode_generic_enough (hop : c.resolveOpcode (b0.setWidth 6) = .generic op)
    (hl : genericLen (b0.getLsbD 7) ≤ 2 + rest.length) :
    ∃ r, decode c (b0 :: b1 :: rest) = .ok (op.instr r, genericLen (b0.getLsbD 7)) := by
  obtain ⟨ra, rb, hd⟩ := decode_cons_of_generic hop
  rw [← headerM7_headerWord b0 b1] at hl ⊢
  rw [hd, decodeGeneric_enough hl]
  exact ⟨_, rfl⟩

end Sys2Proof

namespace Sys2Proof.Machine

@[simp] theorem exec_nop (r : GenericRec) (s : State) : exec (.nop r) s = .next s := rfl

/-! ### A running state's step (40_execution_control.md R100) -/

theorem step_of_fetch_error {s : State} {e : ErrorKind} (hrun : s.Running) (hf : s.fetch = .error (.error e)) :
    step s = .next (s.takeError e) := by
  rw [step_running hrun, hf]
  exact conclude_error s e

theorem step_of_fetch_ok {s t : State} {i : Instr} {len : Nat} (hrun : s.Running) (hf : s.fetch = .ok (i, len))
    (hx : exec i s = .next t) (ht : t.Running) : step s = .next (t.advance len) := by
  rw [step_running hrun, hf]
  simp [hx, retire, t.stopped_eq_false.mpr ht]

theorem step_of_fetch_nop {s : State} {r : GenericRec} {len : Nat} (hrun : s.Running)
    (hf : s.fetch = .ok (.nop r, len)) : step s = .next (s.advance len) :=
  step_of_fetch_ok hrun hf (exec_nop r s) hrun

/-! ### A generic opcode at `pc` (20_memory.md R55, 30_encoding.md R74) -/

section
variable {s : State} {op : GenericOp} (hpc : s.pc.toNat + 2 ≤ s.cfg.memSize)
  (hop : s.cfg.resolveOpcode ((Memory.read s.mem s.pc.toNat).setWidth 6) = .generic op)
include hpc hop

theorem fetch_generic_truncated
    (hl : s.cfg.memSize < s.pc.toNat + genericLen ((Memory.read s.mem s.pc.toNat).getLsbD 7)) :
    s.fetch = .error (.error .truncated) := by
  obtain ⟨rest, hw, hlen⟩ := window_cons hpc
  rw [State.fetch, hw]
  exact decode_generic_truncated hop (by omega)

theorem fetch_generic_enough
    (hl : s.pc.toNat + genericLen ((Memory.read s.mem s.pc.toNat).getLsbD 7) ≤ s.cfg.memSize) :
    ∃ r, s.fetch = .ok (op.instr r, genericLen ((Memory.read s.mem s.pc.toNat).getLsbD 7)) := by
  obtain ⟨rest, hw, hlen⟩ := window_cons hpc
  have hmax := (genericLen_bounds ((Memory.read s.mem s.pc.toNat).getLsbD 7)).2
  rw [State.fetch, hw]
  exact decode_generic_enough hop (by omega)

end

/-- The length of a generic instruction as a displacement of `pc` (30_encoding.md R75). -/
theorem ofNat_genericLen (isImm : Bool) : BitVec.ofNat 64 (genericLen isImm) = if isImm then 4 else 2 := by
  cases isImm <;> rfl

/-- A step at a raw value with no assigned meaning: past the instruction when all its bytes are in the region, else `Truncated`
(40_execution_control.md R105, 30_encoding.md R69). -/
theorem step_unassigned {s : State} (hrun : s.Running) (hpc : s.pc.toNat + 2 ≤ s.cfg.memSize)
    (hraw : s.cfg.opcodeMap.lookup ((Memory.read s.mem s.pc.toNat).setWidth 6) = none) :
    step s =
      if s.pc.toNat + genericLen ((Memory.read s.mem s.pc.toNat).getLsbD 7) ≤ s.cfg.memSize
      then .next (s.advance (genericLen ((Memory.read s.mem s.pc.toNat).getLsbD 7)))
      else .next (s.takeError .truncated) := by
  have hnop := Config.resolveOpcode_of_lookup_none hraw
  split
  case isTrue hinside =>
    obtain ⟨r, hf⟩ := fetch_generic_enough hpc hnop hinside
    exact step_of_fetch_nop hrun hf
  case isFalse hcut =>
    exact step_of_fetch_error hrun (fetch_generic_truncated hpc hnop (Nat.lt_of_not_le hcut))

/-- Settles O30: a step at a fetched NOP is the advance of `pc`, and an unassigned raw value is fetched as a NOP of 2 or 4 bytes. -/
theorem nopOnlyAdvances : Obligations.NopOnlyAdvances := by
  refine ⟨fun r s => ⟨exec_nop r s, fun len hrun hf => step_of_fetch_nop hrun hf⟩, fun s hrun hpc hraw => ?unassigned⟩
  case unassigned =>
    have hstep := step_unassigned hrun hpc hraw
    rw [State.advance, ofNat_genericLen] at hstep
    exact hstep

end Sys2Proof.Machine

/-! ## Proofs: unsigned division and the bitwise operations (41_alu.md R129, R131 to R134) -/

namespace Sys2Proof.Machine

section
variable {W : Nat} {a b : BitVec W}

@[simp] theorem divisorIsZero_eq_false : divisorIsZero b = false ↔ b ≠ 0 := by
  simp [divisorIsZero]

theorem aluDivu_of_ne_zero (hb : b ≠ 0) : aluDivu W a b = .ok (BitVec.ofNat W (a.toNat / b.toNat)) := by
  rw [aluDivu, divisorIsZero_eq_false.mpr hb]
  rfl

/-- What R131 computes as `a - b * floor(a / b)` is the remainder. -/
theorem aluModu_of_ne_zero (hb : b ≠ 0) : aluModu W a b = .ok (BitVec.ofNat W (a.toNat % b.toNat)) := by
  rw [aluModu, divisorIsZero_eq_false.mpr hb, Nat.mod_eq_sub]
  rfl

/-- A word is the word of its bits. -/
theorem eq_ofFnLE_of_getElem {v : BitVec W} {f : Fin W → Bool} (h : ∀ (i : Nat) (hi : i < W), v[i] = f ⟨i, hi⟩) :
    v = BitVec.ofFnLE f :=
  BitVec.eq_of_getElem_eq fun i hi => (h i hi).trans (BitVec.getElem_ofFnLE f i hi).symm

theorem and_eq_ofFnLE (a b : BitVec W) : a &&& b = BitVec.ofFnLE fun i : Fin W => a.getLsbD i && b.getLsbD i :=
  eq_ofFnLE_of_getElem fun i hi => by simp [hi]

theorem or_eq_ofFnLE (a b : BitVec W) : a ||| b = BitVec.ofFnLE fun i : Fin W => a.getLsbD i || b.getLsbD i :=
  eq_ofFnLE_of_getElem fun i hi => by simp [hi]

theorem xor_eq_ofFnLE (a b : BitVec W) : a ^^^ b = BitVec.ofFnLE fun i : Fin W => a.getLsbD i ^^ b.getLsbD i :=
  eq_ofFnLE_of_getElem fun i hi => by simp [hi]

end

/-- Settles O42: DIVU and MODU are binary ALU sequences whose function answers on a nonzero divisor. -/
theorem unsignedDivisionResults : Obligations.UnsignedDivisionResults := by
  refine ⟨aluResult_binary (f := fun _ => aluDivu) ?divuSequence ?quotient,
    aluResult_binary (f := fun _ => aluModu) ?moduSequence ?remainder⟩
  case divuSequence => exact fun r s => exec_eq_conclude (.divu r) s
  case moduSequence => exact fun r s => exec_eq_conclude (.modu r) s
  case quotient => exact fun _ _ _ _ _ hb => aluDivu_of_ne_zero hb
  case remainder => exact fun _ _ _ _ _ hb => aluModu_of_ne_zero hb

/-- Settles O43: AND, OR and XOR are binary ALU sequences that answer the word operation, which acts bit by bit. -/
theorem bitwiseResults : Obligations.BitwiseResults := by
  refine ⟨aluResult_binary (f := fun _ => aluAnd) ?andSequence ?andBits,
    aluResult_binary (f := fun _ => aluOr) ?orSequence ?orBits,
    aluResult_binary (f := fun _ => aluXor) ?xorSequence ?xorBits⟩
  case andSequence => exact fun r s => exec_eq_conclude (.and r) s
  case orSequence => exact fun r s => exec_eq_conclude (.or r) s
  case xorSequence => exact fun r s => exec_eq_conclude (.xor r) s
  case andBits => exact fun _ _ _ a b _ => congrArg Except.ok (and_eq_ofFnLE a b)
  case orBits => exact fun _ _ _ a b _ => congrArg Except.ok (or_eq_ofFnLE a b)
  case xorBits => exact fun _ _ _ a b _ => congrArg Except.ok (xor_eq_ofFnLE a b)

end Sys2Proof.Machine

/-! ## Proofs: the pushed value read back at the new R0 (42_push.md R150, R151) -/

namespace Sys2Proof.Machine

variable {s : State} {r : GenericRec} {a : Word}

/-- A read that answers was in bounds (20_memory.md R42). -/
theorem inBounds_of_memRead_eq_ok {n : Nat} {v : Word} (h : memRead s a n = .ok v) : InBounds s a n := by
  by_contra hb
  rw [memRead_outOfBounds hb] at h
  cases h

/-- A slot that answers was readable and answers its word (40_execution_control.md R102). -/
theorem slotValue_eq_ok_iff {op : RegId} {ind : Bool} {v : BitVec (opWidth r)} :
    slotValue s r op ind (opWidth r) = .ok v ↔ SlotReady s r op ind ∧ v = slotWord s r op ind := by
  by_cases hs : SlotReady s r op ind
  · simp [slotValue_ready hs, hs, eq_comm]
  · simp [slotValue_not_ready hs, hs]

/-- The bytes just written are read back in their order (20_memory.md R47). -/
theorem Memory.bytes_writeBytes (bs : List Byte) (k : Nat) {m : Memory} (hm : Memory.wf m = true) :
    Memory.bytes (Memory.writeBytes m k bs) k bs.length = bs := by
  apply List.ext_getElem (Memory.length_bytes _ _ _)
  intro j _ hj
  rw [Memory.getElem_bytes, Memory.read_writeBytes bs k _ hm, dif_pos (by omega)]
  simp only [Nat.add_sub_cancel_left]

/-- A load at the address just stored to gives the stored bytes (20_memory.md R47). -/
theorem load_store (hwf : Memory.wf s.mem = true) (a : Word) (n v : Nat) : (s.store a n v).load a n = v % 256 ^ n := by
  have hbytes := Memory.bytes_writeBytes (leBytes n v) a.toNat hwf
  rw [length_leBytes] at hbytes
  rw [State.load, State.store_mem, hbytes, leNat_leBytes]

@[simp] theorem memRead_setReg (s : State) (q : RegId) (v a : Word) (n : Nat) :
    memRead (s.setReg q v) a n = memRead s a n := rfl

/-- An operation-width value just stored is read back, zero-extended (20_memory.md R42, R47). -/
theorem memRead_store_opWidth (hwf : Memory.wf s.mem = true) (hb : InBounds s a (opWidth r / 8))
    (v : BitVec (opWidth r)) :
    memRead (s.store a (opWidth r / 8) v.toNat) a (opWidth r / 8) = .ok (v.setWidth 64) := by
  have hfits : v.toNat < 256 ^ (opWidth r / 8) := by
    have hpow : 256 ^ (opWidth r / 8) = 2 ^ opWidth r := by rcases opWidth_cases r with hw | hw <;> simp [hw]
    exact hpow ▸ v.isLt
  rw [memRead_inBounds (s := s.store ..) hb, load_store hwf, Nat.mod_eq_of_lt hfits, BitVec.ofNat_toNat]

/-- A PUSH whose slot answers `v` and whose new R0 is in bounds leaves R0 there and `v` in the memory at R0
(42_push.md R150). -/
theorem exec_push_reads_back {v : BitVec (opWidth r)} (h0 : r.operand1 ≠ .r0)
    (hv : slotValue s r r.operand1 r.op1Indirect (opWidth r) = .ok v) (ha : pushAddress r s = a)
    (hb : InBounds s a (opWidth r / 8)) (hwf : Memory.wf s.mem = true) :
    ∃ t, exec (.push r) s = .next t ∧ t.reg .r0 = a ∧ memRead t a (opWidth r / 8) = .ok (v.setWidth 64) := by
  obtain ⟨hs, rfl⟩ := slotValue_eq_ok_iff.mp hv
  subst ha
  refine ⟨_, (exec_eq_conclude (.push r) s).trans (congrArg (conclude s) (push_ready h0 hs hb)), ?stackPointer, ?readBack⟩
  case stackPointer => rw [State.reg_setReg, if_pos rfl]
  case readBack => rw [memRead_setReg, memRead_store_opWidth hwf hb]

/-- Settles O52: in each test the slot answers the given value and R0 - W/8 is 0x10, in bounds. -/
theorem pushSourceTests : Obligations.PushSourceTests := by
  refine ⟨fun s hr0 hr1 hsize hwf => ?direct, fun s hr0 hr1 hread hwf => ?displaced⟩
  case direct =>
    refine exec_push_reads_back (r := ⟨0x2B, false, false, .r1, false, .r0, false, 0⟩) (v := 0x01234567#32)
      (by decide) ?register ?sp32 hsize hwf
    case register =>
      show Except.ok ((s.reg .r1).setWidth 32) = _
      rw [hr1]
      rfl
    case sp32 =>
      rw [pushAddress, hr0]
      rfl
  case displaced =>
    have hend : 0x30 + 8 ≤ s.cfg.memSize := inBounds_of_memRead_eq_ok hread
    have hb : InBounds s 0x10 8 := show 0x10 + 8 ≤ s.cfg.memSize by omega
    refine exec_push_reads_back (r := ⟨0x2B, true, true, .r1, true, .r0, false, 0x10⟩) (v := 0x0123456789ABCDEF#64)
      (by decide) ?memory ?sp64 hb hwf
    case memory =>
      have haddr : slotAddress s ⟨0x2B, true, true, .r1, true, .r0, false, 0x10⟩ .r1 = 0x30 := by
        rw [slotAddress, hr1]
        rfl
      rw [slotValue, haddr, if_pos rfl]
      exact congrArg (Except.map _) hread
    case sp64 =>
      rw [pushAddress, hr0]
      rfl

end Sys2Proof.Machine

/-! ## Proofs: the decoder undoes the encoder and the encoder the decoder (30_encoding.md R74 to R77) -/

namespace Sys2Proof

/-! ### The instruction of a record: its bytes, its length, when it is well formed -/

@[simp] theorem GenericOp.encode_instr (op : GenericOp) (r : GenericRec) : encode (op.instr r) = encodeGeneric r := by
  rw [encode, record_instr]

@[simp] theorem MovOp.encode_instr (op : MovOp) (r : MovRec) : encode (op.instr r) = encodeMov op.idxLen r := by
  rw [encode, record_instr]

@[simp] theorem UnlistedOp.encode_instr (op : UnlistedOp) (r : GenericRec) : encode (op.instr r) = encodeGeneric r := by
  rw [encode, record_instr]

@[simp] theorem GenericOp.length_instr (op : GenericOp) (r : GenericRec) : (op.instr r).length = genericLen r.isImm := by
  rw [Instr.length, record_instr]

@[simp] theorem MovOp.length_instr (op : MovOp) (r : MovRec) :
    (op.instr r).length = movLen op.idxLen r.isOp1Idx r.isOp2Idx := by
  rw [Instr.length, record_instr]

@[simp] theorem UnlistedOp.length_instr (op : UnlistedOp) (r : GenericRec) :
    (op.instr r).length = genericLen r.isImm := by
  rw [Instr.length, record_instr]

variable {c : Config}

@[simp] theorem GenericOp.wf_instr {op : GenericOp} {r : GenericRec} :
    (op.instr r).wf c = true ↔
      (c.resolveOpcode r.rawOpcode = .generic op ∧ c.refusesRaw r.rawOpcode = false) ∧ r.wf = true := by
  simp [Instr.wf, Record.rawOpcode, Record.opcode]

@[simp] theorem MovOp.wf_instr {op : MovOp} {r : MovRec} :
    (op.instr r).wf c = true ↔
      (c.resolveOpcode r.rawOpcode = .mov op ∧ c.refusesRaw r.rawOpcode = false) ∧ r.wf op.idxLen = true := by
  simp [Instr.wf, Record.rawOpcode, Record.opcode]

@[simp] theorem UnlistedOp.wf_instr {op : UnlistedOp} {r : GenericRec} :
    (op.instr r).wf c = true ↔
      (c.resolveOpcode r.rawOpcode = .unlisted op ∧ c.refusesRaw r.rawOpcode = false) ∧ r.wf = true := by
  simp [Instr.wf, Record.rawOpcode, Record.opcode]

/-! ### Decode of encode -/

/-- The encoding of a generic-format record decodes to `mk` of it, where `mk` is what the record's raw opcode selects. -/
theorem decode_encodeGeneric {mk : GenericRec → Instr} {r : GenericRec} (hr : r.wf = true)
    (hlisted : c.refusesRaw r.rawOpcode = false)
    (hmk : ∀ h, headerRaw h = r.rawOpcode → ∀ ra rb rest,
      decodeBody c h ra rb rest = (decodeGeneric h ra rb rest).map fun p => (mk p.1, p.2)) (rest : List Byte) :
    decode c (encodeGeneric r ++ rest) = .ok (mk r, genericLen r.isImm) := by
  obtain ⟨b0, b1, tl, henc, hraw, h1, h2, hdec⟩ := decodeGeneric_encode hr
  rw [henc, List.cons_append, List.cons_append, decode_cons_of_fields (hraw ▸ hlisted) h1 h2, hmk _ hraw, hdec]
  rfl

theorem decode_encodeMov {op : MovOp} {r : MovRec} (hr : r.wf op.idxLen = true)
    (hlisted : c.refusesRaw r.rawOpcode = false) (hop : c.resolveOpcode r.rawOpcode = .mov op) (rest : List Byte) :
    decode c (encodeMov op.idxLen r ++ rest) = .ok (op.instr r, movLen op.idxLen r.isOp1Idx r.isOp2Idx) := by
  obtain ⟨b0, b1, tl, henc, hraw, h1, h2, hdec⟩ := decodeMov_encode hr
  rw [henc, List.cons_append, List.cons_append, decode_cons_of_fields (hraw ▸ hlisted) h1 h2, decodeBody,
    hraw, hop]
  simp only [hdec]
  rfl

/-- A well-formed instruction is read back whole, whatever follows its bytes (30_encoding.md R76). -/
theorem decode_encode {i : Instr} (h : i.wf c = true) (rest : List Byte) :
    decode c (encode i ++ rest) = .ok (i, i.length) := by
  obtain ⟨record, rfl⟩ : ∃ record : Record, record.instr = i := ⟨_, i.instr_record⟩
  cases record with
  | generic op r | unlisted op r =>
    obtain ⟨⟨hop, hlisted⟩, hr⟩ : (_ ∧ _) ∧ _ := by simpa [Record.instr] using h
    have hbody : ∀ h, headerRaw h = r.rawOpcode → ∀ ra rb rest,
        decodeBody c h ra rb rest = (decodeGeneric h ra rb rest).map fun p => (op.instr p.1, p.2) :=
      fun _ hraw _ _ _ => by rw [decodeBody, hraw, hop]
    simpa [Record.instr] using decode_encodeGeneric hr hlisted hbody rest
  | mov op r =>
    obtain ⟨⟨hop, hlisted⟩, hr⟩ := MovOp.wf_instr.mp h
    simpa [Record.instr] using decode_encodeMov hr hlisted hop rest

/-- Settles O11: each format's decoder reads back the record that its encoder wrote. -/
theorem decodeOfEncodeIsIdentity : Obligations.DecodeOfEncodeIsIdentity :=
  fun _ _ rest h => decode_encode h rest

/-! ### Encode of decode -/

theorem except_map_eq_ok {ε α β : Type} {f : α → β} {x : Except ε α} {y : β} (h : x.map f = .ok y) :
    ∃ a, x = .ok a ∧ f a = y := by
  cases x with
  | error e => cases h
  | ok a => exact ⟨a, rfl, Except.ok.inj h⟩

theorem except_mapError_eq_ok {ε ε' α : Type} {f : ε → ε'} {x : Except ε α} {a : α} (h : x.mapError f = .ok a) :
    x = .ok a := by
  cases x with
  | error e => cases h
  | ok b => exact congrArg _ (Except.ok.inj h)

/-- What the format answers under an opcode that is not refused: a well-formed instruction of its own length, within the bytes
given, whose encoding is the bytes read. -/
theorem decodeBody_ok {h : BitVec 16} {ra rb : RegId} {rest : List Byte} {i : Instr} {len : Nat}
    (ha : ra.field = headerOp1 h) (hb : rb.field = headerOp2 h) (hlisted : c.refusesRaw (headerRaw h) = false)
    (hd : decodeBody c h ra rb rest = .ok (i, len)) :
    i.wf c = true ∧ len = i.length ∧ len ≤ 2 + rest.length ∧ encode i = leBytes 2 h.toNat ++ rest.take (len - 2) := by
  cases hop : c.resolveOpcode (headerRaw h) with
  | generic op | unlisted op =>
    rw [decodeBody, hop] at hd
    obtain ⟨⟨r, n⟩, hg, heq⟩ := except_map_eq_ok hd
    obtain ⟨rfl, rfl⟩ := Prod.mk.inj heq
    obtain ⟨hlen, hle, hwf, hraw, henc⟩ := decodeGeneric_ok ha hb hg
    rw [← hraw] at hop hlisted
    exact ⟨by simp [hop, hlisted, hwf], by simpa using hlen, hle, by simpa using henc⟩
  | mov op =>
    rw [decodeBody, hop] at hd
    obtain ⟨⟨r, n⟩, hg, heq⟩ := except_map_eq_ok hd
    obtain ⟨rfl, rfl⟩ := Prod.mk.inj heq
    obtain ⟨hlen, hle, hwf, hraw, henc⟩ := decodeMov_ok op.idxLen_le ha hb hg
    rw [← hraw] at hop hlisted
    exact ⟨by simp [hop, hlisted, hwf], by simpa using hlen, hle, by simpa using henc⟩

/-- What the decoder answers is well formed, of its own length, within the bytes given, and encodes to the bytes read
(30_encoding.md R74 to R76). -/
theorem decode_ok {b : List Byte} {i : Instr} {len : Nat} (h : decode c b = .ok (i, len)) :
    i.wf c = true ∧ len = i.length ∧ len ≤ b.length ∧ encode i = b.take len := by
  match b with
  | [] => cases h
  | [_] => cases h
  | b0 :: b1 :: rest =>
    have hlisted := decode_ok_not_refused h
    obtain ⟨ra, rb, ha, hb, hd⟩ := decode_cons hlisted rest
    obtain ⟨hwf, hlen, hle, henc⟩ := decodeBody_ok ha hb hlisted (except_mapError_eq_ok (hd ▸ h))
    obtain ⟨n, rfl⟩ : ∃ n, len = n + 2 := Nat.exists_eq_add_of_le' (hlen ▸ i.length_bounds.1)
    exact ⟨hwf, hlen, by simpa [Nat.add_comm 2] using hle, by simpa using henc⟩

/-- Settles O12: the bytes read are the encoding, and the header is the first two of them. -/
theorem encodeOfDecodeIsIdentity : Obligations.EncodeOfDecodeIsIdentity := by
  intro c b i len h
  obtain ⟨-, hlen, -, henc⟩ := decode_ok h
  have h2 : 2 ≤ len := hlen ▸ i.length_bounds.1
  exact ⟨by rw [henc, List.take_take, Nat.min_eq_left h2], henc⟩

/-- Settles O13: what the decoder answers is well formed, and its length is between that of a header and the longest. -/
theorem decodedInstructionsAreWellFormed : Obligations.DecodedInstructionsAreWellFormed := by
  intro c b i len h
  obtain ⟨hwf, rfl, hle, -⟩ := decode_ok h
  exact ⟨hwf, i.length_bounds.1, i.length_bounds.2, hle, rfl⟩

/-- Settles O15: the bytes read are the encoding of what was decoded, and decode of encode ignores what follows. -/
theorem decoderReadsOnlyItsBytes : Obligations.DecoderReadsOnlyItsBytes := by
  intro c b rest i len h
  obtain ⟨hwf, rfl, -, henc⟩ := decode_ok h
  rw [← henc]
  exact decode_encode hwf rest

/-! ### When decoding fails (30_encoding.md R75, R77) -/

section
variable {b0 b1 : Byte} {rest : List Byte} (hlisted : c.refusesRaw (b0.setWidth 6) = false)
include hlisted

theorem decode_truncated (hl : 2 + rest.length < Machine.lengthOfFirstByte c b0) :
    decode c (b0 :: b1 :: rest) = .error (.error .truncated) := by
  rw [← headerRaw_headerWord b0 b1] at hlisted
  obtain ⟨ra, rb, -, -, hd⟩ := decode_cons hlisted rest
  rw [Machine.lengthOfFirstByte_eq c b0 b1] at hl
  rw [hd]
  cases hop : c.resolveOpcode (headerRaw (headerWord b0 b1)) with
  | generic op | unlisted op =>
    rw [hop] at hl
    rw [decodeBody, hop]
    simp only [decodeGeneric_truncated hl]
    rfl
  | mov op =>
    rw [hop] at hl
    rw [decodeBody, hop]
    simp only [decodeMov_truncated hl]
    rfl

theorem decode_enough (hl : Machine.lengthOfFirstByte c b0 ≤ 2 + rest.length) :
    ∃ i, decode c (b0 :: b1 :: rest) = .ok (i, Machine.lengthOfFirstByte c b0) := by
  rw [← headerRaw_headerWord b0 b1] at hlisted
  obtain ⟨ra, rb, -, -, hd⟩ := decode_cons hlisted rest
  rw [Machine.lengthOfFirstByte_eq c b0 b1] at hl ⊢
  rw [hd]
  cases hop : c.resolveOpcode (headerRaw (headerWord b0 b1)) with
  | generic op | unlisted op =>
    rw [hop] at hl
    rw [decodeBody, hop]
    simp only [decodeGeneric_enough hl]
    exact ⟨_, rfl⟩
  | mov op =>
    rw [hop] at hl
    obtain ⟨r, hr⟩ := decodeMov_enough (ra := ra) (rb := rb) hl
    rw [decodeBody, hop]
    simp only [hr]
    exact ⟨_, rfl⟩

end

/-- The negation of O14's condition, as the decoder tests it. -/
theorem Config.refusesRaw_eq_false_iff {raw : BitVec 6} :
    c.refusesRaw raw = false ↔ ¬ (c.unlistedPolicy = .refuse ∧ ∃ op, c.resolveOpcode raw = .unlisted op) := by
  rw [← Bool.not_eq_true, Config.refusesRaw_iff, and_comm]

/-- Settles O14: a refused raw value, else a format that fails only on missing bytes. -/
theorem decodingFailsOnlyWhenTruncated : Obligations.DecodingFailsOnlyWhenTruncated := by
  refine fun c => ⟨rfl, fun _ => rfl, fun b0 b1 rest => ⟨fun href => ?refused, fun hlisted => ?listed⟩⟩
  case refused => exact decode_refused (Config.refusesRaw_iff.mpr href.symm) b1 rest
  case listed =>
    rw [← Config.refusesRaw_eq_false_iff] at hlisted
    split
    case isTrue hcut => exact decode_truncated hlisted hcut
    case isFalse hfull => exact decode_enough hlisted (Nat.le_of_not_lt hfull)

/-- The only `DecodeError` of the decoder is `Truncated` (60_exceptions.md R201). -/
theorem decode_error {b : List Byte} {e : ErrorKind} (h : decode c b = .error (.error e)) : e = .truncated := by
  match b with
  | [] => cases h; rfl
  | [_] => cases h; rfl
  | b0 :: b1 :: rest =>
    cases href : c.refusesRaw (b0.setWidth 6) with
    | true => rw [decode_refused href] at h; cases h
    | false =>
      by_cases hl : 2 + rest.length < Machine.lengthOfFirstByte c b0
      · rw [decode_truncated href hl] at h; cases h; rfl
      · obtain ⟨i, hi⟩ := decode_enough (b1 := b1) href (Nat.le_of_not_lt hl)
        rw [hi] at h
        cases h

/-- Settles O10: the five words are decoded by evaluation. -/
theorem wordsDecodeAsTheSpecSays : Obligations.WordsDecodeAsTheSpecSays := by
  unfold Obligations.WordsDecodeAsTheSpecSays
  decide

end Sys2Proof

/-! ## Proofs: the fetch (20_memory.md R55, 30_encoding.md R74) -/

namespace Sys2Proof.Machine

theorem lengthOfFirstByte_le (c : Config) (b : Byte) : lengthOfFirstByte c b ≤ 18 := by
  unfold lengthOfFirstByte
  split
  · exact (genericLen_bounds _).2.trans (by decide)
  · exact (movLen_bounds _ _ _).2
  · exact (genericLen_bounds _).2.trans (by decide)

variable {s : State}

theorem fetch_of_no_header (h : s.cfg.memSize < s.pc.toNat + 2) : s.fetch = .error (.error .truncated) := by
  have hl : s.window.length < 2 := by rw [length_window]; omega
  rw [State.fetch]
  match hw : s.window with
  | [] => rfl
  | [_] => rfl
  | _ :: _ :: _ => simp [hw] at hl

section
variable (hpc : s.pc.toNat + 2 ≤ s.cfg.memSize)
include hpc

/-- A refused raw value at `pc` is refused even where the bytes after its header are missing (60_exceptions.md R203). -/
theorem fetch_refused (href : s.cfg.refusesRaw ((Memory.read s.mem s.pc.toNat).setWidth 6) = true) :
    s.fetch = .error (.refuse (.unlistedOpcode ((Memory.read s.mem s.pc.toNat).setWidth 6))) := by
  obtain ⟨rest, hw, -⟩ := window_cons hpc
  rw [State.fetch, hw, decode_refused href]

variable (hlisted : s.cfg.refusesRaw ((Memory.read s.mem s.pc.toNat).setWidth 6) = false)
include hlisted

theorem fetch_truncated (hl : s.cfg.memSize < s.pc.toNat + lengthOfFirstByte s.cfg (Memory.read s.mem s.pc.toNat)) :
    s.fetch = .error (.error .truncated) := by
  obtain ⟨rest, hw, hlen⟩ := window_cons hpc
  rw [State.fetch, hw]
  exact decode_truncated hlisted (by omega)

/-- The cut of the window at 18 bytes hides nothing: no instruction is longer. -/
theorem fetch_enough (hl : s.pc.toNat + lengthOfFirstByte s.cfg (Memory.read s.mem s.pc.toNat) ≤ s.cfg.memSize) :
    ∃ i, s.fetch = .ok (i, lengthOfFirstByte s.cfg (Memory.read s.mem s.pc.toNat)) := by
  obtain ⟨rest, hw, hlen⟩ := window_cons hpc
  have hmax := lengthOfFirstByte_le s.cfg (Memory.read s.mem s.pc.toNat)
  rw [State.fetch, hw]
  exact decode_enough hlisted (by omega)

end

/-- Settles O17: the window's bytes are memory's, and the fetch is the decoder's answer on them. -/
theorem fetchWindowIsMemoryAtPc : Obligations.FetchWindowIsMemoryAtPc := by
  refine fun s => ⟨length_window s, s.getElem_window, fetch_of_no_header, fun hpc href => ?refused, fun hpc hlisted => ?listed⟩
  case refused => exact fetch_refused hpc (Config.refusesRaw_iff.mpr href.symm)
  case listed =>
    rw [← Config.refusesRaw_eq_false_iff] at hlisted
    split
    case isTrue hcut => exact fetch_truncated hpc hlisted hcut
    case isFalse hfull => exact fetch_enough hpc hlisted (Nat.le_of_not_lt hfull)

end Sys2Proof.Machine

/-! ## Proofs: how an instruction and a step end (40_execution_control.md R100, R103, 60_exceptions.md R202) -/

namespace Sys2Proof.Machine

/-! ### The stops of an instruction's effect (60_exceptions.md R202) -/

/-- The stops that R202's table gives an instruction. -/
def MayStop (i : Instr) : Stop → Prop
  | .error e => e ∈ mayRaise i
  | .refuse r => r ∈ mayRefuse i

section
variable {r : GenericRec} {s : State} {x : Stop}

theorem unary_error {f : (W : Nat) → BitVec W → BitVec W} (h : unary f r s = .error x) : x = .error .outOfBounds := by
  by_cases hr : SlotReady s r r.operand2 r.op2Indirect ∧ Op1Ready s r
  · rw [unary_ready hr.1 hr.2] at h
    cases h
  · rw [unary_not_ready (by tauto)] at h
    exact (Except.error.inj h).symm

/-- A binary ALU effect stops on an operand out of bounds or where its function does. -/
theorem binary_error {f : (W : Nat) → BitVec W → BitVec W → Except Stop (BitVec W)} (h : binary f r s = .error x) :
    x = .error .outOfBounds ∨ ∃ W a b, f W a b = .error x := by
  by_cases hr : SlotReady s r r.operand2 r.op2Indirect ∧ Op1Ready s r
  · rw [binary_ready hr.1 hr.2] at h
    cases hf : f (opWidth r) (op1Word s r) (slotWord s r r.operand2 r.op2Indirect) with
    | error y => rw [hf] at h; cases h; exact .inr ⟨_, _, _, hf⟩
    | ok v => rw [hf] at h; cases h
  · rw [binary_not_ready (by tauto)] at h
    exact .inl (Except.error.inj h).symm

theorem push_error (h : push r s = .error x) : x = .error .outOfBounds ∨ x = .refuse .pushOfStackPointer := by
  by_cases h0 : r.operand1 = .r0
  · rw [push_r0 h0] at h
    exact .inr (Except.error.inj h).symm
  · by_cases hr : SlotReady s r r.operand1 r.op1Indirect ∧ InBounds s (pushAddress r s) (opWidth r / 8)
    · rw [push_ready h0 hr.1 hr.2] at h
      cases h
    · rw [push_not_ready h0 (by tauto)] at h
      exact .inl (Except.error.inj h).symm

theorem mov_error {n L : Nat} (hn : n ≤ 8) {m : MovRec} (h : mov n L m s = .error x) :
    x = .error .outOfBounds ∨ x = .refuse .indexOnDirectOperand := by
  cases hi : indexOnDirect m with
  | true =>
    rw [mov_index hi] at h
    exact .inr (Except.error.inj h).symm
  | false =>
    by_cases hr : MovSourceReady s n L m ∧ MovDestReady s n L m
    · rw [mov_ready hn hi hr.1 hr.2] at h
      cases h
    · rw [mov_not_ready hi (by tauto)] at h
      exact .inl (Except.error.inj h).symm

theorem unlisted_error (h : unlisted r s = .error x) : x = .refuse (.unlistedOpcode r.rawOpcode) := by
  unfold unlisted at h
  split at h <;> cases h
  rfl

end

section
variable {W : Nat} {a b : BitVec W} {x : Stop}

/-- The signed divisions stop on a zero divisor and on the overflow (41_alu.md R128, R130). -/
theorem aluDiv_error (h : aluDiv W a b = .error x) : x = .error .divisionByZero ∨ x = .refuse .signedDivisionOverflow := by
  unfold aluDiv at h
  split at h
  · exact .inl (Except.error.inj h).symm
  · split at h <;> cases h
    exact .inr rfl

theorem aluMod_error (h : aluMod W a b = .error x) : x = .error .divisionByZero ∨ x = .refuse .signedDivisionOverflow := by
  unfold aluMod at h
  split at h
  · exact .inl (Except.error.inj h).symm
  · split at h <;> cases h
    exact .inr rfl

theorem aluDivu_error (h : aluDivu W a b = .error x) : x = .error .divisionByZero := by
  unfold aluDivu at h
  split at h <;> cases h
  rfl

theorem aluModu_error (h : aluModu W a b = .error x) : x = .error .divisionByZero := by
  unfold aluModu at h
  split at h <;> cases h
  rfl

theorem aluShl_error (h : aluShl W a b = .error x) : x = .refuse .shiftCountTooLarge := by
  unfold aluShl at h
  split at h <;> cases h
  rfl

theorem aluShr_error {k : ShrKind} (h : aluShr k W a b = .error x) : x = .refuse .shiftCountTooLarge := by
  unfold aluShr at h
  split at h
  · exact (Except.error.inj h).symm
  · cases k <;> cases h

end

/-- An instruction's effect stops only in ways that R202's table gives it. -/
theorem effect_error {i : Instr} {s : State} {x : Stop} (h : effect i s = .error x) : MayStop i x := by
  unfold effect at h
  unfold MayStop mayRaise mayRefuse
  cases hr : i.record with
  | generic op r =>
    rw [hr] at h
    cases op
    case nop | ret => cases h
    case not | neg => simp [unary_error h]
    case push => obtain rfl | rfl := push_error h <;> simp
    case div =>
      obtain rfl | ⟨W, a, b, hf⟩ := binary_error h
      · simp
      · obtain rfl | rfl := aluDiv_error hf <;> simp
    case mod =>
      obtain rfl | ⟨W, a, b, hf⟩ := binary_error h
      · simp
      · obtain rfl | rfl := aluMod_error hf <;> simp
    case divu =>
      obtain rfl | ⟨W, a, b, hf⟩ := binary_error h
      · simp
      · simp [aluDivu_error hf]
    case modu =>
      obtain rfl | ⟨W, a, b, hf⟩ := binary_error h
      · simp
      · simp [aluModu_error hf]
    case shl =>
      obtain rfl | ⟨W, a, b, hf⟩ := binary_error h
      · simp
      · simp [aluShl_error hf]
    case shr =>
      obtain rfl | ⟨W, a, b, hf⟩ := binary_error h
      · simp
      · simp [aluShr_error hf]
    case add | sub | mul | mulu | and | or | xor =>
      obtain rfl | ⟨W, a, b, hf⟩ := binary_error h
      · simp
      · cases hf
  | mov op r =>
    rw [hr] at h
    obtain rfl | rfl := mov_error op.opLen_le h <;> simp
  | unlisted op r =>
    rw [hr] at h
    simp [unlisted_error h]

/-- Settles O28: a state that failed or was refused in `exec` stopped in the instruction's effect. -/
theorem errorsAndRefusalsByInstruction : Obligations.ErrorsAndRefusalsByInstruction := by
  intro i s t he hr hx
  rw [exec_eq_conclude] at hx
  rcases conclude_cases hx with hok | ⟨e, herr, rfl⟩ | ⟨r, href, rfl⟩
  · obtain ⟨hkeeps, -⟩ := effect_ok hok
    simp [hkeeps.error, hkeeps.refused, he, hr]
  · have hmay : e ∈ mayRaise i := effect_error herr
    simpa [hr] using hmay
  · have hmay : r ∈ mayRefuse i := effect_error href
    simpa [he] using hmay

/-! ### The four ends of a step -/

/-- No instruction raises `InvalidOperand` (60_exceptions.md R201). -/
theorem not_mem_mayRaise_invalidOperand (i : Instr) : ErrorKind.invalidOperand ∉ mayRaise i := by
  unfold mayRaise
  cases i.record with
  | generic op r => cases op <;> simp
  | mov op r => simp
  | unlisted op r => simp

/-- RET never stops in an error or a refusal (40_execution_control.md R106). -/
theorem effect_ret (r : GenericRec) (s : State) : effect (.ret r) s = .ok s.halt := rfl

/-- How a step that answers `t` ended: in an error or a refusal at which nothing else changed, in RET, or past an instruction that
completed (40_execution_control.md R100). Only the third fetches RET. -/
inductive StepEnds (s t : State) : Prop where
  | failed (e : ErrorKind) (kind : e ≠ .invalidOperand) (noRet : ∀ r len, s.fetch ≠ .ok (.ret r, len))
      (eq : t = s.takeError e)
  | refused (r : RefuseReason) (noRet : ∀ r len, s.fetch ≠ .ok (.ret r, len)) (eq : t = s.takeRefusal r)
  | halted (r : GenericRec) (len : Nat) (fetch : s.fetch = .ok (.ret r, len)) (eq : t = s.halt)
  | ran (i : Instr) (len : Nat) (u : State) (fetch : s.fetch = .ok (i, len)) (noRet : ∀ r, i ≠ .ret r)
      (keeps : Keeps s u) (running : u.Running) (eq : t = u.advance len)

theorem step_ends {s t : State} (h : step s = .next t) : s.Running ∧ StepEnds s t := by
  obtain ⟨hrun, ⟨e, hf, rfl⟩ | ⟨r, hf, rfl⟩ | ⟨i, len, u, hf, hx, rfl⟩⟩ := step_cases h
  · exact ⟨hrun, .failed e (by simp [decode_error hf]) (by simp [hf]) rfl⟩
  · exact ⟨hrun, .refused r (by simp [hf]) rfl⟩
  · refine ⟨hrun, ?_⟩
    have hstops {x : Stop} (hx : effect i s = .error x) (r : GenericRec) (n : Nat) : s.fetch ≠ .ok (.ret r, n) := by
      intro hret
      obtain ⟨rfl, -⟩ := Prod.mk.inj (Except.ok.inj (hf.symm.trans hret))
      cases (effect_ret r s).symm.trans hx
    rw [exec_eq_conclude] at hx
    rcases conclude_cases hx with hok | ⟨e, herr, rfl⟩ | ⟨r, href, rfl⟩
    · obtain ⟨hkeeps, hhalted | ⟨⟨r, rfl⟩, rfl⟩⟩ := effect_ok hok
      · have hu : u.Running := ⟨hhalted.trans hrun.1, hkeeps.error.trans hrun.2.1, hkeeps.refused.trans hrun.2.2⟩
        rw [u.stopped_eq_false.mpr hu]
        refine .ran i len u hf ?noRet hkeeps hu rfl
        case noRet =>
          rintro r rfl
          obtain rfl := Except.ok.inj ((effect_ret r s).symm.trans hok)
          exact absurd hu.1 (by simp)
      · exact .halted r len hf (by simp)
    · have hmay : e ∈ mayRaise i := effect_error herr
      exact .failed e (fun hkind => not_mem_mayRaise_invalidOperand i (hkind ▸ hmay)) (hstops herr) (by simp)
    · exact .refused r (hstops href) (by simp)

theorem State.Running.oneEnd {s : State} (h : s.Running) : s.oneEnd = true := by
  obtain ⟨hh, he, hr⟩ := h
  simp [State.oneEnd, hh, he, hr]

/-- A running state that takes one end of the run keeps the invariant, whichever it is. -/
theorem State.Running.inv_ends {s : State} (hrun : s.Running) (hinv : s.Inv) :
    (∀ e, e ≠ .invalidOperand → (s.takeError e).Inv) ∧ (∀ r, (s.takeRefusal r).Inv) ∧ s.halt.Inv := by
  obtain ⟨hh, he, hr⟩ := hrun
  obtain ⟨hcfg, hwf, hin, -, -⟩ := hinv
  refine ⟨fun e hkind => ⟨hcfg, hwf, hin, ?_, by simpa using hkind⟩, fun r => ⟨hcfg, hwf, hin, ?_, by simp [he]⟩,
    ⟨hcfg, hwf, hin, ?_, by simp [he]⟩⟩ <;> simp [State.oneEnd, hh, he, hr]

/-- Settles O20: each of the four ends of a step keeps the configuration and the invariant. -/
theorem stepKeepsInvariant : Obligations.StepKeepsInvariant := by
  intro s t h
  obtain ⟨hrun, hends⟩ := step_ends h
  cases hends with
  | failed e hkind _ heq => exact heq ▸ ⟨rfl, fun hinv => (hrun.inv_ends hinv).1 e hkind⟩
  | refused r _ heq => exact heq ▸ ⟨rfl, fun hinv => (hrun.inv_ends hinv).2.1 r⟩
  | halted r len _ heq => exact heq ▸ ⟨rfl, fun hinv => (hrun.inv_ends hinv).2.2⟩
  | ran i len u _ _ hkeeps hu heq =>
    refine heq ▸ ⟨hkeeps.cfg, fun ⟨hcfg, hwf, hin, _, hkind⟩ => ⟨?_, hkeeps.wf hwf, ?_, hu.oneEnd, ?_⟩⟩
    · simpa [hkeeps.cfg] using hcfg
    · simpa [hkeeps.cfg] using hkeeps.inside hin
    · simpa [hkeeps.error] using hkind

/-- Settles O24: of the four ends only the completed instruction moves `pc`, by the length it was fetched with. -/
theorem programCounterAdvancesByLength : Obligations.ProgramCounterAdvancesByLength := by
  intro s t h
  obtain ⟨-, hends⟩ := step_ends h
  cases hends with
  | failed e _ _ heq => exact .inr (heq ▸ ⟨(State.stopped_iff _).mp (s.takeError_stopped e), rfl⟩)
  | refused r _ heq => exact .inr (heq ▸ ⟨(State.stopped_iff _).mp (s.takeRefusal_stopped r), rfl⟩)
  | halted r len _ heq => exact .inr (heq ▸ ⟨(State.stopped_iff _).mp s.halt_stopped, rfl⟩)
  | ran i len u hf _ hkeeps hu heq =>
    obtain ⟨-, hlen, -, -⟩ := decode_ok hf
    exact .inl (heq ▸ ⟨hu, i, len, hf, hlen, congrArg (· + _) hkeeps.pc⟩)

/-- Settles O25: of the four ends only the error sets `error`. -/
theorem errorsChangeNothingElse : Obligations.ErrorsChangeNothingElse := by
  intro s t e h he
  obtain ⟨⟨-, hnone, -⟩, hends⟩ := step_ends h
  cases hends with
  | failed e' _ _ heq =>
    subst heq
    cases he
    rfl
  | refused r _ heq => simp [heq, hnone] at he
  | halted r len _ heq => simp [heq, hnone] at he
  | ran i len u _ _ hkeeps _ heq => simp [heq, hkeeps.error, hnone] at he

/-- Settles O26: of the four ends only the refusal sets `refused`. -/
theorem refusalsChangeNothingElse : Obligations.RefusalsChangeNothingElse := by
  intro s t r h hr
  obtain ⟨⟨-, -, hnone⟩, hends⟩ := step_ends h
  cases hends with
  | refused r' _ heq =>
    subst heq
    cases hr
    rfl
  | failed e _ _ heq => simp [heq, hnone] at hr
  | halted r' len _ heq => simp [heq, hnone] at hr
  | ran i len u _ _ hkeeps _ heq => simp [heq, hkeeps.refused, hnone] at hr

/-- Settles O27: of the four ends only RET's sets `halted`, and only it fetches RET. -/
theorem onlyRetHalts : Obligations.OnlyRetHalts := by
  intro s t h
  obtain ⟨⟨hclear, -, -⟩, hends⟩ := step_ends h
  cases hends with
  | halted r len hf heq => exact ⟨⟨fun _ => ⟨r, len, hf⟩, fun _ => heq ▸ rfl⟩, fun _ => heq⟩
  | failed e _ hret heq => simp [heq, hclear, hret]
  | refused r hret heq => simp [heq, hclear, hret]
  | ran i len u hf hret _ hu heq => simp [heq, hu.1, hf, hret]

/-- Settles O19: a running state's step concludes an effect or the decoder's stop; a stopped state's is its fault. -/
theorem runningStatesAndOnlyTheyStep : Obligations.RunningStatesAndOnlyTheyStep := by
  intro s
  by_cases hrun : s.Running
  · obtain ⟨t, ht⟩ : ∃ t, step s = .next t := by
      rw [step_running hrun]
      cases s.fetch with
      | error x => exact conclude_next s (.error x)
      | ok p =>
        obtain ⟨u, hu⟩ := conclude_next s (effect p.1 s)
        exact ⟨_, congrArg (retire p.2) ((exec_eq_conclude p.1 s).trans hu)⟩
    simp [hrun, ht]
  · obtain ⟨f, hf⟩ := Option.ne_none_iff_exists'.mp (mt s.noStep_eq_none.mp hrun)
    have hs : step s = .fault f := by rw [step, hf]
    simp [hrun, hs]

/-- Settles O16: the step of a running state, with `retire` and the stops written out. -/
theorem stepRunsTheDecodedInstruction : Obligations.StepRunsTheDecodedInstruction := by
  intro s hrun
  refine ⟨fun i len hd => ?ran, fun e hd => ?failed, fun r hd => ?refused⟩
  case ran =>
    obtain ⟨u, hu⟩ := conclude_next s (effect i s)
    rw [← exec_eq_conclude] at hu
    have hstopped : u.stopped = true ↔ u.halted = true ∨ u.error ≠ none ∨ u.refused ≠ none := by
      simp [State.stopped, Option.isSome_iff_ne_none, or_assoc]
    rw [step_running hrun, State.fetch, hd]
    simp only [hu, retire, hstopped]
    rfl
  case failed => exact step_of_fetch_error hrun hd
  case refused =>
    rw [step_running hrun, State.fetch, hd]
    rfl

end Sys2Proof.Machine

/-! ## Proofs: reset and launch (70_reset_and_hazards.md R240, R242) -/

namespace Sys2Proof.Machine

/-- Settles O21: the default configuration is admitted and nothing is listed or set. -/
theorem resetMeetsInvariant : Obligations.ResetMeetsInvariant := by
  refine ⟨?_, rfl, rfl, rfl, ?_⟩
  · decide
  · decide

/-- Settles O23: each field as `State.reset` writes it out, read of registers and memory included. -/
theorem resetState : Obligations.ResetState := by
  refine ⟨rfl, rfl, rfl, fun r => ?registers, fun _ => rfl, rfl, rfl, rfl, rfl, rfl, rfl, rfl⟩
  case registers => cases r <;> rfl

/-- What the cells of an image leave at an address for which there is none of them. -/
theorem foldl_cells_of_forall_ne {c : Config} {image : List Host.Cell} {a : Nat}
    (h : ∀ cell ∈ image, cell.1 ≠ a) (b : Byte) :
    image.foldl (fun b cell => if cell.1 = a ∧ a < c.memSize then cell.2 else b) b = b := by
  induction image generalizing b with
  | nil => rfl
  | cons cell image ih =>
    obtain ⟨hne, htail⟩ := List.forall_mem_cons.mp h
    rw [List.foldl_cons, if_neg (fun hc => hne hc.1), ih htail]

/-- The image's last cell for an address of the region is what a load leaves there (70_reset_and_hazards.md R240). -/
theorem Memory.read_load_last {c : Config} {before later : List Host.Cell} {a : Nat} {b : Byte}
    (hlast : ∀ cell ∈ later, cell.1 ≠ a) (ha : a < c.memSize) {m : Memory} (hm : Memory.wf m = true) :
    Memory.read (Memory.load c m (before ++ (a, b) :: later)) a = b := by
  rw [Memory.read_load c _ a hm, List.foldl_append, List.foldl_cons, if_pos ⟨rfl, ha⟩, foldl_cells_of_forall_ne hlast]

/-- A load leaves an address outside the region, or with no cell of its own, as it was (log entry 15). -/
theorem Memory.read_load_other {c : Config} {image : List Host.Cell} {a : Nat}
    (h : (∀ cell ∈ image, cell.1 ≠ a) ∨ c.memSize ≤ a) {m : Memory} (hm : Memory.wf m = true) :
    Memory.read (Memory.load c m image) a = Memory.read m a := by
  rw [Memory.read_load c image a hm]
  rcases h with h | h
  · exact foldl_cells_of_forall_ne h _
  · simp [Nat.not_lt_of_le h]

/-- Settles O22: loading keeps memory's form and place, and gives each byte of the region its last cell. -/
theorem launchMeetsInvariant : Obligations.LaunchMeetsInvariant := by
  intro c regs image entry hc
  have hrun : (State.launch c regs image entry).Running := ⟨rfl, rfl, rfl⟩
  refine ⟨⟨hc, Memory.wf_load c image rfl, Memory.inside_load c image rfl, hrun.oneEnd, nofun⟩, hrun, rfl, rfl, rfl,
    ?lastCell, fun a h => ?unloaded⟩
  case lastCell =>
    rintro before a b later rfl hlast ha
    exact Memory.read_load_last hlast ha rfl
  case unloaded => exact Memory.read_load_other h rfl

end Sys2Proof.Machine

/-! ## Proofs: RET and the unlisted opcodes (40_execution_control.md R106, 30_encoding.md R70) -/

namespace Sys2Proof.Machine

theorem exec_ret (r : GenericRec) (s : State) : exec (.ret r) s = .next s.halt := rfl

theorem step_of_fetch_refusal {s : State} {r : RefuseReason} (hrun : s.Running) (hf : s.fetch = .error (.refuse r)) :
    step s = .next (s.takeRefusal r) := by
  rw [step_running hrun, hf]
  exact conclude_refuse s r

/-- Settles O31: RET's result is stopped, so the step keeps it as it is. -/
theorem retHalts : Obligations.RetHalts := by
  refine fun r s => ⟨exec_ret r s, fun len hrun hf => ?step⟩
  case step =>
    rw [step_running hrun, hf]
    simp only [exec_ret, retire, State.halt_stopped, if_true]
    rfl

section
variable {s : State} {mk : GenericRec → Instr} (h : mk ∈ unlistedInstrs) (r : GenericRec)
include h

theorem exec_unlisted_nop (hp : s.cfg.unlistedPolicy = .nop) : exec (mk r) s = .next s := by
  rw [exec_unlisted h, unlisted, hp]
  rfl

theorem exec_unlisted_refuse (hp : s.cfg.unlistedPolicy = .refuse) :
    exec (mk r) s = .next (s.takeRefusal (.unlistedOpcode r.rawOpcode)) := by
  rw [exec_unlisted h, unlisted, hp]
  rfl

end

/-- Settles O32: under `nop` the effect is the state itself, so the step is the advance of `pc`. -/
theorem unlistedIsNopUnderNopPolicy : Obligations.UnlistedIsNopUnderNopPolicy := by
  intro mk hmk r s hp
  have hx := exec_unlisted_nop hmk r hp
  exact ⟨hx, fun len hrun hf => step_of_fetch_ok hrun hf hx hrun⟩

/-- Settles O33: `exec` refuses by its own test of the policy, the step by the decoder's. -/
theorem unlistedIsRefusedUnderRefusePolicy : Obligations.UnlistedIsRefusedUnderRefusePolicy := by
  refine ⟨fun mk hmk r s hp => exec_unlisted_refuse hmk r hp, fun s op hrun hp hpc hop => ?step⟩
  case step =>
    have href := Config.refusesRaw_iff.mpr ⟨⟨op, hop⟩, hp⟩
    exact step_of_fetch_refusal hrun (fetch_refused hpc href)

/-- Settles O34: neither NOP, RET nor PUSH looks at the fields in question. -/
theorem unusedFieldsAreIgnored : Obligations.UnusedFieldsAreIgnored :=
  fun _ _ _ _ _ => ⟨rfl, rfl, rfl⟩

/-- Settles O35: NOP and RET write out what they leave; an unlisted opcode leaves the state or takes its refusal. -/
theorem controlFrame : Obligations.ControlFrame := by
  intro mk hmk r s t hx
  obtain rfl | rfl | hmk : mk = .nop ∨ mk = .ret ∨ mk ∈ unlistedInstrs := by simpa using hmk
  · cases hx
    simp
  · cases hx
    simp
  · cases hp : s.cfg.unlistedPolicy with
    | refuse =>
      cases (exec_unlisted_refuse hmk r hp).symm.trans hx
      simp
    | nop =>
      cases (exec_unlisted_nop hmk r hp).symm.trans hx
      simp

end Sys2Proof.Machine

/-! ## Proofs: execution does not see `pc`, and register forms do not see memory (91_not_in_source.md N15, 20_memory.md R46) -/

namespace Sys2Proof.Machine

/-- The state with another program counter. -/
def State.withPc (s : State) (p : Word) : State := { s with pc := p }

/-- The state with another memory. -/
def State.withMem (s : State) (m : Memory) : State := { s with mem := m }

/-- A unary ALU sequence is the binary one whose function ignores operand1: both need the same operands ready. -/
theorem unary_eq_binary (f : (W : Nat) → BitVec W → BitVec W) (r : GenericRec) (s : State) :
    unary f r s = binary (fun W _ b => .ok (f W b)) r s := by
  by_cases hr : SlotReady s r r.operand2 r.op2Indirect ∧ Op1Ready s r
  · rw [unary_ready hr.1 hr.2, binary_ready hr.1 hr.2]
    rfl
  · rw [unary_not_ready (by tauto), binary_not_ready (by tauto)]

section
variable {g : State → State} {s : State}

/-- A binary ALU sequence commutes with a change of state that its operands do not see. -/
theorem binary_map {r : GenericRec} {f : (W : Nat) → BitVec W → BitVec W → Except Stop (BitVec W)}
    (hslot : ∀ W, slotValue (g s) r r.operand2 r.op2Indirect W = slotValue s r r.operand2 r.op2Indirect W)
    (hop1 : ∀ W, op1Value (g s) r W = op1Value s r W)
    (hwrite : ∀ {W} (v : BitVec W), op1Write (g s) r v = (op1Write s r v).map g) :
    binary f r (g s) = (binary f r s).map g := by
  simp only [binary, hslot, hop1, hwrite, bind, Except.bind]
  cases slotValue s r r.operand2 r.op2Indirect (opWidth r) with
  | error x => rfl
  | ok b =>
    cases op1Value s r (opWidth r) with
    | error x => rfl
    | ok a =>
      dsimp only
      cases f (opWidth r) a b <;> rfl

/-- An outcome commutes with a change of state that errors and refusals do not see. -/
theorem conclude_map {t : State} {x : Except Stop State} (hx : conclude s x = .next t)
    (herror : ∀ e, (g s).takeError e = g (s.takeError e)) (hrefuse : ∀ r, (g s).takeRefusal r = g (s.takeRefusal r)) :
    conclude (g s) (x.map g) = .next (g t) := by
  rcases conclude_cases hx with rfl | ⟨e, rfl, rfl⟩ | ⟨r, rfl, rfl⟩
  · rfl
  · exact congrArg _ (herror e)
  · exact congrArg _ (hrefuse r)

end

/-! ### Every instruction and `pc` -/

section
variable (s : State) (p : Word)

theorem memWrite_withPc (a : Word) (n : Nat) (v : Word) :
    memWrite (s.withPc p) a n v = (memWrite s a n v).map (·.withPc p) := by
  by_cases hb : InBounds s a n
  · rw [memWrite_inBounds hb, memWrite_inBounds (s := s.withPc p) hb]
    rfl
  · rw [memWrite_outOfBounds hb, memWrite_outOfBounds (s := s.withPc p) hb]
    rfl

theorem op1Write_withPc (r : GenericRec) {W : Nat} (v : BitVec W) :
    op1Write (s.withPc p) r v = (op1Write s r v).map (·.withPc p) := by
  unfold op1Write
  split
  · exact memWrite_withPc s p _ _ _
  · rfl

theorem binary_withPc (f : (W : Nat) → BitVec W → BitVec W → Except Stop (BitVec W)) (r : GenericRec) :
    binary f r (s.withPc p) = (binary f r s).map (·.withPc p) :=
  binary_map (g := (·.withPc p)) (fun _ => rfl) (fun _ => rfl) (op1Write_withPc s p r)

theorem unary_withPc (f : (W : Nat) → BitVec W → BitVec W) (r : GenericRec) :
    unary f r (s.withPc p) = (unary f r s).map (·.withPc p) := by
  rw [unary_eq_binary, unary_eq_binary, binary_withPc]

theorem push_withPc (r : GenericRec) : push r (s.withPc p) = (push r s).map (·.withPc p) := by
  by_cases h0 : r.operand1 = .r0
  · rw [push_r0 h0, push_r0 h0]
    rfl
  · by_cases hr : SlotReady s r r.operand1 r.op1Indirect ∧ InBounds s (pushAddress r s) (opWidth r / 8)
    · rw [push_ready h0 hr.1 hr.2, push_ready (s := s.withPc p) h0 hr.1 hr.2]
      rfl
    · rw [push_not_ready (s := s) h0 (not_and_or.mp hr), push_not_ready (s := s.withPc p) h0 (not_and_or.mp hr)]
      rfl

theorem movWrite_withPc (n L : Nat) (m : MovRec) (v : Word) :
    movWrite (s.withPc p) n L m v = (movWrite s n L m v).map (·.withPc p) := by
  unfold movWrite
  split
  · exact memWrite_withPc s p _ _ _
  · rfl

theorem mov_withPc (n L : Nat) (m : MovRec) : mov n L m (s.withPc p) = (mov n L m s).map (·.withPc p) := by
  have hsource : movSource (s.withPc p) n L m = movSource s n L m := rfl
  unfold mov
  split
  · rfl
  · rw [hsource]
    cases movSource s n L m with
    | error x => rfl
    | ok v => exact movWrite_withPc s p n L m v

theorem unlisted_withPc (r : GenericRec) : unlisted r (s.withPc p) = (unlisted r s).map (·.withPc p) := by
  have hpolicy : (s.withPc p).cfg = s.cfg := rfl
  rw [unlisted, unlisted, hpolicy]
  cases s.cfg.unlistedPolicy <;> rfl

/-- The effect of an instruction commutes with a change of `pc`. -/
theorem effect_withPc (i : Instr) : effect i (s.withPc p) = (effect i s).map (·.withPc p) := by
  unfold effect
  cases i.record with
  | generic op r =>
    cases op
    case nop | ret => rfl
    case not | neg => exact unary_withPc s p _ r
    case push => exact push_withPc s p r
    all_goals exact binary_withPc s p _ r
  | mov op r => exact mov_withPc s p _ _ r
  | unlisted op r => exact unlisted_withPc s p r

end

/-- Settles O29: an instruction concludes its effect, which commutes with a change of `pc`. -/
theorem programCounterIsInvisible : Obligations.ProgramCounterIsInvisible := by
  intro i s p
  obtain ⟨t, ht⟩ := conclude_next s (effect i s)
  refine ⟨t, (exec_eq_conclude i s).trans ht, ?_⟩
  have hmoved := conclude_map (g := (·.withPc p)) ht (fun _ => rfl) (fun _ => rfl)
  rw [← effect_withPc] at hmoved
  exact (exec_eq_conclude i (s.withPc p)).trans hmoved

/-! ### The ALU instructions -/

/-- Each of the fifteen ALU instructions is a binary sequence, whose function may depend on `P_SHR_KIND` (41_alu.md R121). -/
theorem exec_alu {mk : GenericRec → Instr} (h : mk ∈ aluInstrs) :
    ∃ f : ShrKind → (W : Nat) → BitVec W → BitVec W → Except Stop (BitVec W),
      ∀ r s, exec (mk r) s = conclude s (binary (f s.cfg.shrKind) r s) := by
  have hunary (f : (W : Nat) → BitVec W → BitVec W) (hx : ∀ r s, exec (mk r) s = conclude s (unary f r s)) :
      ∃ f : ShrKind → (W : Nat) → BitVec W → BitVec W → Except Stop (BitVec W),
        ∀ r s, exec (mk r) s = conclude s (binary (f s.cfg.shrKind) r s) :=
    ⟨fun _ W _ b => .ok (f W b), fun r s => by rw [hx, unary_eq_binary]⟩
  simp only [aluInstrs, List.mem_cons, List.not_mem_nil, or_false] at h
  rcases h with rfl | rfl | rfl | rfl | rfl | rfl | rfl | rfl | rfl | rfl | rfl | rfl | rfl | rfl | rfl
  · exact hunary aluNot fun _ _ => rfl
  · exact hunary aluNeg fun _ _ => rfl
  · exact ⟨fun _ => aluAdd, fun _ _ => rfl⟩
  · exact ⟨fun _ => aluSub, fun _ _ => rfl⟩
  · exact ⟨fun _ => aluMul, fun _ _ => rfl⟩
  · exact ⟨fun _ => aluMulu, fun _ _ => rfl⟩
  · exact ⟨fun _ => aluDiv, fun _ _ => rfl⟩
  · exact ⟨fun _ => aluDivu, fun _ _ => rfl⟩
  · exact ⟨fun _ => aluMod, fun _ _ => rfl⟩
  · exact ⟨fun _ => aluModu, fun _ _ => rfl⟩
  · exact ⟨fun _ => aluAnd, fun _ _ => rfl⟩
  · exact ⟨fun _ => aluOr, fun _ _ => rfl⟩
  · exact ⟨fun _ => aluXor, fun _ _ => rfl⟩
  · exact ⟨fun _ => aluShl, fun _ _ => rfl⟩
  · exact ⟨aluShr, fun _ _ => rfl⟩

section
variable {s : State} {r : GenericRec}

/-- A binary sequence on two direct operands commutes with a change of memory. -/
theorem binary_withMem (h1 : r.op1Indirect = false) (h2 : r.op2Indirect = false)
    (f : (W : Nat) → BitVec W → BitVec W → Except Stop (BitVec W)) (m : Memory) :
    binary f r (s.withMem m) = (binary f r s).map (·.withMem m) := by
  refine binary_map (g := (·.withMem m)) (fun W => ?slot) (fun W => ?operand1) (fun v => ?write)
  case slot =>
    rw [slotValue, slotValue, h2]
    rfl
  case operand1 =>
    rw [op1Value, op1Value, h1]
    rfl
  case write =>
    rw [op1Write, op1Write, h1]
    rfl

theorem op1Result_mem_of_direct (h1 : r.op1Indirect = false) (v : BitVec (opWidth r)) :
    (op1Result s r v).mem = s.mem := by
  rw [op1Result, h1]
  rfl

end

/-- Settles O50: the sequence commutes with a change of memory, and its result is a register write. -/
theorem registerFormsIgnoreMemory : Obligations.RegisterFormsIgnoreMemory := by
  intro mk hmk r s m h1 h2
  obtain ⟨f, hf⟩ := exec_alu hmk
  obtain ⟨t, ht⟩ := conclude_next s (binary (f s.cfg.shrKind) r s)
  refine ⟨t, (hf r s).trans ht, ?commutes, ?memory⟩
  case commutes =>
    have hmoved := conclude_map (g := (·.withMem m)) ht (fun _ => rfl) (fun _ => rfl)
    rw [← binary_withMem h1 h2] at hmoved
    exact (hf r (s.withMem m)).trans hmoved
  case memory =>
    rcases conclude_cases ht with hok | ⟨e, -, rfl⟩ | ⟨x, -, rfl⟩
    · obtain ⟨-, v, rfl⟩ := binary_ok hok
      exact op1Result_mem_of_direct h1 v
    · rfl
    · rfl

end Sys2Proof.Machine

/-! ## Proofs: when an access fails, and what a write leaves (20_memory.md R43, R44, R47) -/

namespace Sys2Proof

/-- An admitted region ends at 2^64 or before (92_eei_decisions.md D2). -/
theorem Config.memSize_le_of_wf {c : Config} (h : c.wf = true) : c.memSize ≤ 2 ^ 64 := by
  simp only [Config.wf, Bool.and_eq_true, decide_eq_true_eq] at h
  omega

end Sys2Proof

namespace Sys2Proof.Machine

section
variable {s : State} {a : Word} {n : Nat}

theorem not_inBounds_iff : ¬ InBounds s a n ↔ s.cfg.memSize < a.toNat + n := Nat.not_le

theorem memRead_eq_outOfBounds_iff : memRead s a n = .error (.error .outOfBounds) ↔ ¬ InBounds s a n := by
  by_cases hb : InBounds s a n
  · simp [memRead_inBounds hb, hb]
  · simp [memRead_outOfBounds hb, hb]

theorem exists_memRead_eq_ok_iff : (∃ w, memRead s a n = .ok w) ↔ InBounds s a n :=
  ⟨fun ⟨_, h⟩ => inBounds_of_memRead_eq_ok h, fun hb => ⟨_, memRead_inBounds hb⟩⟩

theorem memWrite_eq_outOfBounds_iff {v : Word} :
    memWrite s a n v = .error (.error .outOfBounds) ↔ ¬ InBounds s a n := by
  by_cases hb : InBounds s a n
  · simp [memWrite_inBounds hb, hb]
  · simp [memWrite_outOfBounds hb, hb]

theorem exists_memWrite_eq_ok_iff {v : Word} : (∃ t, memWrite s a n v = .ok t) ↔ InBounds s a n := by
  simp [memWrite_eq_ok_iff]

/-- Settles O3: an access answers exactly in bounds, and no admitted region reaches beyond 2^64. -/
theorem accessFailsExactlyOutOfBounds : Obligations.AccessFailsExactlyOutOfBounds := by
  intro s addr v n _ hwf
  have hread := memRead_eq_outOfBounds_iff.trans (not_inBounds_iff (s := s) (a := addr) (n := n))
  have hwrite := (memWrite_eq_outOfBounds_iff (v := v)).trans (not_inBounds_iff (s := s) (a := addr) (n := n))
  refine ⟨hread, exists_memRead_eq_ok_iff, hwrite, exists_memWrite_eq_ok_iff, fun hwrap => ?noWrap⟩
  case noWrap =>
    have hout := (Config.memSize_le_of_wf hwf).trans_lt hwrap
    exact ⟨hread.mpr hout, hwrite.mpr hout⟩

/-- Settles O5: a write in bounds is a store, which is read back byte by byte. -/
theorem writeSetsItsBytesOnly : Obligations.WriteSetsItsBytesOnly := by
  intro s addr v n _ hwf
  refine ⟨fun hout => memWrite_outOfBounds (not_inBounds_iff.mpr hout) v,
    fun hin => ⟨_, memWrite_inBounds hin v, rfl, fun k hk => ?stored, fun a ha => read_store_outside hwf ha⟩⟩
  case stored => rw [read_store hwf, if_pos (by omega), Nat.add_sub_cancel_left]

theorem zext_eq_ofNat (N : Nat) (v : Word) : zext N v = BitVec.ofNat 64 (v.toNat % 2 ^ N) := by
  apply BitVec.eq_of_toNat_eq
  simp [zext]

/-- A load of bytes that a store did not touch (20_memory.md R47). -/
theorem load_store_disjoint (hwf : Memory.wf s.mem = true) {b : Word} {k : Nat} (v : Nat)
    (h : b.toNat + k ≤ a.toNat ∨ a.toNat + n ≤ b.toNat) : (s.store a n v).load b k = s.load b k :=
  congrArg leNat (Memory.bytes_congr fun j _ => read_store_outside hwf (by omega))

/-- Settles O6: a load after a store, at the stored bytes and apart from them; the bounds are the same in both states. -/
theorem readAfterWrite : Obligations.ReadAfterWrite := by
  intro s t addr v n _ hwf hwrite
  obtain ⟨hb, rfl⟩ := memWrite_eq_ok_iff.mp hwrite
  refine ⟨?same, fun b k _ hdisjoint => ?other⟩
  case same => rw [memRead_inBounds (s := s.store ..) hb, load_store hwf, zext_eq_ofNat, pow_bits_eq_pow_bytes]
  case other =>
    by_cases hbk : InBounds s b k
    · rw [memRead_inBounds (s := s.store ..) hbk, memRead_inBounds hbk, load_store_disjoint hwf _ hdisjoint]
    · rw [memRead_outOfBounds (s := s.store ..) hbk, memRead_outOfBounds hbk]

end

end Sys2Proof.Machine

/-! ## Proofs: operand forms and register extension (40_execution_control.md R102, R104, 43_mov.md R161) -/

namespace Sys2Proof.Machine

theorem immediate_eq_ofNat (r : GenericRec) : immediate r = BitVec.ofNat 64 (r.imm.toNat % 2 ^ 16) := by
  have hword : r.imm.toNat % 2 ^ 64 = r.imm.toNat := Nat.mod_eq_of_lt (r.imm.isLt.trans (by decide))
  rw [immediate, zext_eq_ofNat, BitVec.toNat_setWidth, hword]

/-- Settles O7: the branches of `SlotValue`, with the immediate as a number. -/
theorem slotValueCases : Obligations.SlotValueCases := by
  intro s r op W hW
  have hW64 : W ≤ 64 := by omega
  refine ⟨fun hi => ?immediate, fun hi => ?displaced, fun hi => ?memory, fun hi => ?register⟩
  case immediate => simp [slotValue, hi, immediate_eq_ofNat, BitVec.setWidth_ofNat_of_le hW64]
  case displaced => simp [slotValue, slotAddress, hi, immediate_eq_ofNat]
  case memory => simp [slotValue, slotAddress, hi]
  case register => simp [slotValue, hi]

/-! ### A 32-bit result in a register (40_execution_control.md R104) -/

section
variable (p : W32Upper) (old : Word) (v : BitVec 32)

theorem placeResult_low : (placeResult p old v).extractLsb' 0 32 = v := by
  apply BitVec.eq_of_getLsbD_eq
  intro i hi
  cases p <;> simp [placeResult, hi, BitVec.getLsbD_signExtend] <;> omega

theorem placeResult_high :
    (placeResult p old v).extractLsb' 32 32 =
      match p with
      | .zero => 0
      | .sign => if v.msb then BitVec.allOnes 32 else 0
      | .preserve => old.extractLsb' 32 32 := by
  apply BitVec.eq_of_getLsbD_eq
  intro i hi
  cases p with
  | zero => simp [placeResult]
  | sign =>
    cases hm : v.msb with
    | false => simp [placeResult, BitVec.getLsbD_signExtend, hm, hi]
    | true =>
      simp [placeResult, BitVec.getLsbD_signExtend, hm, hi, -BitVec.reduceAllOnes]
      omega
  | preserve =>
    simp [placeResult, hi]
    omega

end

/-- Settles O8: the branches of `Op1Value` and `Op1Write`, and the two halves of a placed 32-bit result. -/
theorem operand1ReadAndWrite : Obligations.Operand1ReadAndWrite := by
  refine fun s r => ⟨fun W _ => ⟨fun hi => ?readMemory, fun hi => ?readRegister, fun v hi => ?writeMemory⟩,
    fun v hi => ?write64, fun v hi => ⟨_, ?write32, placeResult_low s.cfg.w32Upper (s.reg r.operand1) v,
      placeResult_high s.cfg.w32Upper (s.reg r.operand1) v⟩⟩
  case readMemory => simp [op1Value, hi]
  case readRegister => simp [op1Value, hi]
  case writeMemory => simp [op1Write, hi]
  case write64 => simp [op1Write, hi, placeResult]
  case write32 => simp [op1Write, hi]

/-- Settles O9: extension from 8n bits, which is none at n = 8. -/
theorem movRegisterExtension : Obligations.MovRegisterExtension := by
  intro v n hn
  have hn8 := accessWidth_le hn
  refine ⟨?zero, ?sign, fun p => ?whole⟩
  case zero =>
    have hbits : 2 ^ (8 * n) ≤ 2 ^ 64 := Nat.pow_le_pow_right Nat.two_pos (by omega)
    rw [regExt, zext_eq_ofNat, BitVec.toNat_ofNat]
    exact Nat.mod_eq_of_lt ((Nat.mod_lt _ (Nat.two_pow_pos _)).trans_le hbits)
  case sign => exact BitVec.toInt_signExtend_of_le (by omega)
  case whole => cases p <;> simp [regExt, zext, sext]

end Sys2Proof.Machine

/-! ## Proofs: the results and the stops of the ALU (41_alu.md R122 to R137) -/

namespace Sys2Proof.Machine

/-! ### The functions of the unary, additive and multiplicative instructions -/

section
variable (W : Nat) (a b : BitVec W)

theorem aluNot_eq_ofNat : aluNot W b = BitVec.ofNat W (2 ^ W - 1 - b.toNat) := by
  rw [aluNot, ← BitVec.toNat_not, BitVec.ofNat_toNat, BitVec.setWidth_eq]

theorem aluNeg_eq_ofInt : aluNeg W b = BitVec.ofInt W (-b.toInt) := by
  rw [aluNeg, BitVec.ofInt_neg, BitVec.ofInt_toInt]
  rfl

theorem add_eq_ofInt : a + b = BitVec.ofInt W (a.toInt + b.toInt) := by
  rw [BitVec.ofInt_add, BitVec.ofInt_toInt, BitVec.ofInt_toInt]

theorem sub_eq_ofNat : a - b = BitVec.ofNat W (a.toNat + 2 ^ W - b.toNat) := by
  have hb := b.isLt
  apply BitVec.eq_of_toNat_eq
  rw [BitVec.toNat_sub, BitVec.toNat_ofNat]
  congr 1
  omega

/-- The signed product modulo 2^W (41_alu.md R126). -/
theorem aluMul_eq : aluMul W a b = .ok (a * b) := by
  rw [aluMul, BitVec.ofInt_mul, BitVec.ofInt_toInt, BitVec.ofInt_toInt]

/-- The unsigned product modulo 2^W (41_alu.md R127). -/
theorem aluMulu_eq : aluMulu W a b = .ok (a * b) := by
  rw [aluMulu, BitVec.ofNat_mul, BitVec.ofNat_toNat, BitVec.ofNat_toNat, BitVec.setWidth_eq, BitVec.setWidth_eq]

end

/-- Settles O36: NOT and NEG are unary ALU sequences of the complement and the negation. -/
theorem unaryResults : Obligations.UnaryResults := by
  refine ⟨aluResult_unary (f := aluNot) ?notSequence ?complement, aluResult_unary (f := aluNeg) ?negSequence ?negation⟩
  case notSequence => exact fun r s => exec_eq_conclude (.not r) s
  case negSequence => exact fun r s => exec_eq_conclude (.neg r) s
  case complement => exact fun _ W _ _ b => aluNot_eq_ofNat W b
  case negation => exact fun _ W _ _ b => aluNeg_eq_ofInt W b

/-- Settles O37: the word sum and difference, read on the signed and the unsigned values. -/
theorem addSubResults : Obligations.AddSubResults := by
  refine ⟨aluResult_binary (f := fun _ => aluAdd) ?addSequence ?sum,
    aluResult_binary (f := fun _ => aluSub) ?subSequence ?difference⟩
  case addSequence => exact fun r s => exec_eq_conclude (.add r) s
  case subSequence => exact fun r s => exec_eq_conclude (.sub r) s
  case sum => exact fun _ W _ a b _ => congrArg Except.ok (add_eq_ofInt W a b)
  case difference => exact fun _ W _ a b _ => congrArg Except.ok (sub_eq_ofNat W a b)

/-- Settles O38: the two functions are the two products by definition. -/
theorem multiplyResults : Obligations.MultiplyResults := by
  refine ⟨aluResult_binary (f := fun _ => aluMul) ?mulSequence ?signed,
    aluResult_binary (f := fun _ => aluMulu) ?muluSequence ?unsigned⟩
  case mulSequence => exact fun r s => exec_eq_conclude (.mul r) s
  case muluSequence => exact fun r s => exec_eq_conclude (.mulu r) s
  case signed => exact fun _ _ _ _ _ _ => rfl
  case unsigned => exact fun _ _ _ _ _ _ => rfl

/-- Settles O39: modulo 2^W the signed and the unsigned product are one word, so the two sequences are one. -/
theorem mulAndMuluAgree : Obligations.MulAndMuluAgree := by
  intro r s
  have hproduct : aluMul = aluMulu := by
    funext W a b
    rw [aluMul_eq, aluMulu_eq]
  calc exec (.mul r) s = conclude s (binary aluMul r s) := exec_eq_conclude (.mul r) s
    _ = conclude s (binary aluMulu r s) := by rw [hproduct]
    _ = exec (.mulu r) s := (exec_eq_conclude (.mulu r) s).symm

/-! ### Signed division (41_alu.md R128, R130) -/

section
variable {W : Nat} {a b : BitVec W}

@[simp] theorem divisorIsZero_eq_true : divisorIsZero b = true ↔ b = 0 := by
  simp [divisorIsZero]

theorem divisionOverflows_eq_true : divisionOverflows a b = true ↔ a.toInt = -(2 ^ (W - 1)) ∧ b.toInt = -1 := by
  simp [divisionOverflows]

theorem divisionOverflows_eq_false :
    divisionOverflows a b = false ↔ ¬ (a.toInt = -(2 ^ (W - 1)) ∧ b.toInt = -1) := by
  rw [← Bool.not_eq_true, divisionOverflows_eq_true]

section
variable (hb : b ≠ 0) (ho : ¬ (a.toInt = -(2 ^ (W - 1)) ∧ b.toInt = -1))
include hb ho

theorem aluDiv_of_ok : aluDiv W a b = .ok (BitVec.ofInt W (a.toInt.tdiv b.toInt)) := by
  rw [aluDiv, divisorIsZero_eq_false.mpr hb, divisionOverflows_eq_false.mpr ho]
  rfl

/-- What R130 computes as `a - b * div_t(a, b)` is the remainder of the division toward zero. -/
theorem aluMod_of_ok : aluMod W a b = .ok (BitVec.ofInt W (a.toInt.tmod b.toInt)) := by
  rw [aluMod, divisorIsZero_eq_false.mpr hb, divisionOverflows_eq_false.mpr ho, Int.tmod_def]
  rfl

end

theorem aluDiv_of_zero (hb : b = 0) : aluDiv W a b = .error (.error .divisionByZero) := by
  rw [aluDiv, divisorIsZero_eq_true.mpr hb]
  rfl

theorem aluDivu_of_zero (hb : b = 0) : aluDivu W a b = .error (.error .divisionByZero) := by
  rw [aluDivu, divisorIsZero_eq_true.mpr hb]
  rfl

theorem aluMod_of_zero (hb : b = 0) : aluMod W a b = .error (.error .divisionByZero) := by
  rw [aluMod, divisorIsZero_eq_true.mpr hb]
  rfl

theorem aluModu_of_zero (hb : b = 0) : aluModu W a b = .error (.error .divisionByZero) := by
  rw [aluModu, divisorIsZero_eq_true.mpr hb]
  rfl

section
variable (ho : a.toInt = -(2 ^ (W - 1)) ∧ b.toInt = -1)
include ho

theorem ne_zero_of_toInt_eq_neg_one : b ≠ 0 := by
  rintro rfl
  simp at ho

theorem aluDiv_of_overflow : aluDiv W a b = .error (.refuse .signedDivisionOverflow) := by
  rw [aluDiv, divisorIsZero_eq_false.mpr (ne_zero_of_toInt_eq_neg_one ho), divisionOverflows_eq_true.mpr ho]
  rfl

theorem aluMod_of_overflow : aluMod W a b = .error (.refuse .signedDivisionOverflow) := by
  rw [aluMod, divisorIsZero_eq_false.mpr (ne_zero_of_toInt_eq_neg_one ho), divisionOverflows_eq_true.mpr ho]
  rfl

end

/-- A signed division that answers has a nonzero divisor and does not overflow. -/
theorem aluDiv_ok {q : BitVec W} (h : aluDiv W a b = .ok q) :
    b ≠ 0 ∧ ¬ (a.toInt = -(2 ^ (W - 1)) ∧ b.toInt = -1) := by
  constructor
  · intro hb
    cases (aluDiv_of_zero hb).symm.trans h
  · intro ho
    cases (aluDiv_of_overflow ho).symm.trans h

end

/-- Settles O40: DIV and MOD are binary ALU sequences whose functions answer outside the two stops. -/
theorem signedDivisionResults : Obligations.SignedDivisionResults := by
  refine ⟨aluResult_binary (f := fun _ => aluDiv) ?divSequence ?quotient,
    aluResult_binary (f := fun _ => aluMod) ?modSequence ?remainder⟩
  case divSequence => exact fun r s => exec_eq_conclude (.div r) s
  case modSequence => exact fun r s => exec_eq_conclude (.mod r) s
  case quotient => exact fun _ _ _ _ _ hok => aluDiv_of_ok hok.1 hok.2
  case remainder => exact fun _ _ _ _ _ hok => aluMod_of_ok hok.1 hok.2

/-- Outside the overflow the W-bit quotient is the integer quotient: it fits in W bits. -/
theorem toInt_ofInt_tdiv {W : Nat} (hW : W = 32 ∨ W = 64) {a b : BitVec W}
    (ho : ¬ (a.toInt = -(2 ^ (W - 1)) ∧ b.toInt = -1)) :
    (BitVec.ofInt W (a.toInt.tdiv b.toInt)).toInt = a.toInt.tdiv b.toInt := by
  have hfits : a ≠ BitVec.intMin W ∨ b ≠ -1#W := by
    by_contra hboth
    obtain ⟨rfl, rfl⟩ : a = BitVec.intMin W ∧ b = -1#W := by tauto
    rcases hW with rfl | rfl <;> exact ho (by decide)
  rw [BitVec.toInt_ofInt, ← BitVec.toInt_sdiv, BitVec.toInt_sdiv_of_ne_or_ne a b hfits]

/-- The remainder is no larger than its operands, so it always fits in W bits. -/
theorem toInt_ofInt_tmod {W : Nat} (a b : BitVec W) :
    (BitVec.ofInt W (a.toInt.tmod b.toInt)).toInt = a.toInt.tmod b.toInt := by
  rw [← BitVec.toInt_srem, BitVec.ofInt_toInt]

/-- Settles O41: quotient and remainder fit in W bits, so the integers' identity, bound and sign are theirs. -/
theorem signedDivisionIdentity : Obligations.SignedDivisionIdentity := by
  intro W hW a b q m hq hm
  obtain ⟨hb, ho⟩ := aluDiv_ok hq
  cases (aluDiv_of_ok hb ho).symm.trans hq
  cases (aluMod_of_ok hb ho).symm.trans hm
  have hb0 : b.toInt ≠ 0 := by simpa [← BitVec.toInt_inj] using hb
  rw [toInt_ofInt_tdiv hW ho, toInt_ofInt_tmod]
  refine ⟨Int.tdiv_mul_add_tmod _ _, ?magnitude, fun ha => Int.tmod_nonneg _ ha, fun ha => ?sign⟩
  case magnitude =>
    rw [Int.natAbs_tmod]
    exact Nat.mod_lt _ (Int.natAbs_pos.mpr hb0)
  case sign =>
    have hneg := Int.tmod_nonneg b.toInt (Int.neg_nonneg.mpr ha)
    rw [Int.neg_tmod] at hneg
    omega

/-- Settles O45: each of the four functions tests the divisor first. -/
theorem divisionByZeroIsTaken : Obligations.DivisionByZeroIsTaken := by
  intro mk hmk
  simp only [List.mem_cons, List.not_mem_nil, or_false] at hmk
  rcases hmk with rfl | rfl | rfl | rfl
  · exact aluStops_binary (f := fun _ => aluDiv) (fun _ _ => rfl) (fun _ _ _ _ _ => aluDiv_of_zero) fun _ => rfl
  · exact aluStops_binary (f := fun _ => aluDivu) (fun _ _ => rfl) (fun _ _ _ _ _ => aluDivu_of_zero) fun _ => rfl
  · exact aluStops_binary (f := fun _ => aluMod) (fun _ _ => rfl) (fun _ _ _ _ _ => aluMod_of_zero) fun _ => rfl
  · exact aluStops_binary (f := fun _ => aluModu) (fun _ _ => rfl) (fun _ _ _ _ _ => aluModu_of_zero) fun _ => rfl

/-- Settles O46: a divisor of -1 is not zero, so both functions come to their test for the overflow. -/
theorem signedOverflowIsRefused : Obligations.SignedOverflowIsRefused := by
  intro mk hmk
  simp only [List.mem_cons, List.not_mem_nil, or_false] at hmk
  rcases hmk with rfl | rfl
  · exact aluStops_binary (f := fun _ => aluDiv) (fun _ _ => rfl) (fun _ _ _ _ _ => aluDiv_of_overflow) fun _ => rfl
  · exact aluStops_binary (f := fun _ => aluMod) (fun _ _ => rfl) (fun _ _ _ _ _ => aluMod_of_overflow) fun _ => rfl

/-! ### Shifts (41_alu.md R135, R136) -/

section
variable {W : Nat} {a b : BitVec W}

theorem shiftTooLarge_eq_false : shiftTooLarge b = false ↔ b.toNat < W := by
  simp [shiftTooLarge]

theorem shiftTooLarge_eq_true : shiftTooLarge b = true ↔ W ≤ b.toNat := by
  simp [shiftTooLarge]

theorem aluShl_of_lt (hb : b.toNat < W) : aluShl W a b = .ok (BitVec.ofNat W (a.toNat * 2 ^ b.toNat)) := by
  have hshift : a <<< b.toNat = BitVec.ofNat W (a.toNat * 2 ^ b.toNat) := by
    apply BitVec.eq_of_toNat_eq
    rw [BitVec.toNat_shiftLeft, BitVec.toNat_ofNat, Nat.shiftLeft_eq]
  rw [aluShl, shiftTooLarge_eq_false.mpr hb, hshift]
  rfl

/-- An arithmetic shift right is the floor division of the signed value. -/
theorem aluShr_arith_of_lt (hb : b.toNat < W) : aluShr .arith W a b = .ok (BitVec.ofInt W (a.toInt / 2 ^ b.toNat)) := by
  have hshift : a.sshiftRight b.toNat = BitVec.ofInt W (a.toInt / 2 ^ b.toNat) := by
    rw [← BitVec.ofInt_toInt (x := a.sshiftRight b.toNat), BitVec.toInt_sshiftRight, Int.shiftRight_eq_div_pow]
    norm_cast
  rw [aluShr, shiftTooLarge_eq_false.mpr hb, hshift]
  rfl

/-- A logical shift right is the floor division of the unsigned value. -/
theorem aluShr_logical_of_lt (hb : b.toNat < W) :
    aluShr .logical W a b = .ok (BitVec.ofNat W (a.toNat / 2 ^ b.toNat)) := by
  have hshift : a >>> b.toNat = BitVec.ofNat W (a.toNat / 2 ^ b.toNat) := by
    rw [← Nat.shiftRight_eq_div_pow, ← BitVec.toNat_ushiftRight, BitVec.ofNat_toNat, BitVec.setWidth_eq]
  rw [aluShr, shiftTooLarge_eq_false.mpr hb, hshift]
  rfl

theorem aluShl_of_le (hb : W ≤ b.toNat) : aluShl W a b = .error (.refuse .shiftCountTooLarge) := by
  rw [aluShl, shiftTooLarge_eq_true.mpr hb]
  rfl

theorem aluShr_of_le {k : ShrKind} (hb : W ≤ b.toNat) : aluShr k W a b = .error (.refuse .shiftCountTooLarge) := by
  rw [aluShr.eq_def, if_pos (shiftTooLarge_eq_true.mpr hb)]

end

/-- Settles O44: SHL and SHR are binary ALU sequences whose functions answer below W, SHR's by `P_SHR_KIND`. -/
theorem shiftResults : Obligations.ShiftResults := by
  refine ⟨aluResult_binary (f := fun _ => aluShl) ?shlSequence ?left,
    aluResult_binary (f := fun s => aluShr s.cfg.shrKind) ?shrSequence ?right⟩
  case shlSequence => exact fun r s => exec_eq_conclude (.shl r) s
  case shrSequence => exact fun r s => exec_eq_conclude (.shr r) s
  case left => exact fun _ _ _ _ _ hb => aluShl_of_lt hb
  case right =>
    intro s W _ a b hb
    cases s.cfg.shrKind with
    | arith => exact aluShr_arith_of_lt hb
    | logical => exact aluShr_logical_of_lt hb

/-- Settles O47: both functions test the count first. -/
theorem largeShiftsAreRefused : Obligations.LargeShiftsAreRefused := by
  intro mk hmk
  simp only [List.mem_cons, List.not_mem_nil, or_false] at hmk
  rcases hmk with rfl | rfl
  · exact aluStops_binary (f := fun _ => aluShl) (fun _ _ => rfl) (fun _ _ _ _ _ => aluShl_of_le) fun _ => rfl
  · exact aluStops_binary (f := fun s => aluShr s.cfg.shrKind) (fun _ _ => rfl) (fun _ _ _ _ _ => aluShr_of_le)
      fun _ => rfl

/-- Settles O48: a binary sequence reads both operands before it computes. -/
theorem aluOutOfBoundsIsTaken : Obligations.AluOutOfBoundsIsTaken := by
  intro mk hmk r s h
  obtain ⟨f, hf⟩ := exec_alu hmk
  rw [hf, binary_not_ready h]
  rfl

end Sys2Proof.Machine

/-! ## Proofs: PUSH, the nine MOVs and the frames of the storing instructions (42_push.md R150, 43_mov.md R160) -/

namespace Sys2Proof.Machine

/-! ### Writing operand1: what it leaves unchanged -/

/-- From `s` to `t` at most one operand was written: the register `dest` when it is direct, the `n` bytes at `a` when it is
indirect; the run control stays, or registers and memory do. -/
def OperandWritten (s t : State) (ind : Bool) (dest : RegId) (a : Word) (n : Nat) : Prop :=
  t.cfg = s.cfg ∧ t.pc = s.pc ∧ t.halted = s.halted ∧
    (∀ q, ind = true ∨ q ≠ dest → t.reg q = s.reg q) ∧
    (ind = false → ∀ j, Memory.read t.mem j = Memory.read s.mem j) ∧
    (∀ j, j < a.toNat ∨ a.toNat + n ≤ j → Memory.read t.mem j = Memory.read s.mem j) ∧
    ((t.error = s.error ∧ t.refused = s.refused) ∨ (t.regs = s.regs ∧ t.mem = s.mem))

section
variable {s : State} {ind : Bool} (dest : RegId) (a : Word) (n : Nat)

theorem operandWritten_takeError (e : ErrorKind) : OperandWritten s (s.takeError e) ind dest a n := by
  simp [OperandWritten]

theorem operandWritten_takeRefusal (r : RefuseReason) : OperandWritten s (s.takeRefusal r) ind dest a n := by
  simp [OperandWritten]

theorem operandWritten_store (hwf : Memory.wf s.mem = true) (hi : ind = true) (v : Nat) :
    OperandWritten s (s.store a n v) ind dest a n :=
  ⟨rfl, rfl, rfl, fun _ _ => rfl, fun h => absurd (hi.symm.trans h) nofun, fun _ hj => read_store_outside hwf hj,
    .inl ⟨rfl, rfl⟩⟩

theorem operandWritten_setReg (hi : ind = false) (v : Word) : OperandWritten s (s.setReg dest v) ind dest a n := by
  refine ⟨rfl, rfl, rfl, fun q hq => ?other, fun _ _ => rfl, fun _ _ => rfl, .inl ⟨rfl, rfl⟩⟩
  case other =>
    have hne : q ≠ dest := hq.resolve_left (by simp [hi])
    rw [State.reg_setReg, if_neg hne]

/-- An instruction that completes only by writing its operand changes no more when it fails or is refused. -/
theorem operandWritten_conclude {t : State} {x : Except Stop State} (hx : conclude s x = .next t)
    (hok : ∀ u, x = .ok u → OperandWritten s u ind dest a n) : OperandWritten s t ind dest a n := by
  rcases conclude_cases hx with hdone | ⟨e, -, rfl⟩ | ⟨r, -, rfl⟩
  · exact hok t hdone
  · exact operandWritten_takeError dest a n e
  · exact operandWritten_takeRefusal dest a n r

end

theorem op1Result_operandWritten {s : State} {r : GenericRec} (hwf : Memory.wf s.mem = true) (v : BitVec (opWidth r)) :
    OperandWritten s (op1Result s r v) r.op1Indirect r.operand1 (s.reg r.operand1) (opWidth r / 8) := by
  unfold op1Result
  split
  case isTrue hi => exact operandWritten_store _ _ _ hwf hi _
  case isFalse hi => exact operandWritten_setReg _ _ _ (Bool.not_eq_true _ ▸ hi) _

theorem movResult_operandWritten {s : State} {n L : Nat} {m : MovRec} (hwf : Memory.wf s.mem = true) (v : Nat) :
    OperandWritten s (movResult s n L m v) m.op1Indirect m.operand1 (movDestAddress s L m) n := by
  unfold movResult
  split
  case isTrue hi => exact operandWritten_store _ _ _ hwf hi _
  case isFalse hi => exact operandWritten_setReg _ _ _ (Bool.not_eq_true _ ▸ hi) _

/-- Settles O49: a binary sequence that completes leaves a result in operand1. -/
theorem aluFrame : Obligations.AluFrame := by
  intro mk hmk r s t hwf hx
  obtain ⟨f, hf⟩ := exec_alu hmk
  refine operandWritten_conclude _ _ _ ((hf r s).symm.trans hx) fun u hu => ?_
  obtain ⟨-, v, rfl⟩ := binary_ok hu
  exact op1Result_operandWritten hwf v

/-! ### PUSH -/

theorem exec_push (r : GenericRec) (s : State) : exec (.push r) s = conclude s (push r s) :=
  exec_eq_conclude (.push r) s

/-- Settles O51: the completed PUSH, with its store and its register write as fields of the state. -/
theorem pushStoresAndDecrements : Obligations.PushStoresAndDecrements := by
  intro r s h0 hs hb
  rw [exec_push, push_ready h0 hs hb]
  rfl

/-- Settles O53: the test for R0 comes first. -/
theorem pushOfR0IsRefused : Obligations.PushOfR0IsRefused := by
  intro r s h0
  rw [exec_push, push_r0 h0]
  rfl

/-- Settles O54: neither access of PUSH keeps anything when it fails. -/
theorem pushOutOfBoundsIsTaken : Obligations.PushOutOfBoundsIsTaken := by
  intro r s h0 h
  rw [exec_push, push_not_ready h0 h]
  rfl

/-- Settles O55: a completed PUSH is one store and one write of R0. -/
theorem pushFrame : Obligations.PushFrame := by
  intro r s t hwf hx
  rw [exec_push] at hx
  rcases conclude_cases hx with hok | ⟨e, -, rfl⟩ | ⟨x, -, rfl⟩
  · obtain ⟨-, v, rfl⟩ := push_ok hok
    refine ⟨rfl, rfl, rfl, fun q hq => ?other, fun a ha => read_store_outside hwf ha, .inl ⟨rfl, rfl⟩⟩
    case other => simp [hq]
  · simp
  · simp

/-! ### The nine MOVs -/

/-- Each of the nine is `ExecMov` with its own widths (43_mov.md R162 to R170). -/
theorem exec_mov {p : (MovRec → Instr) × Nat × Nat} (h : p ∈ movInstrs) :
    p.2.1 ≤ 8 ∧ ∀ r s, exec (p.1 r) s = conclude s (mov p.2.1 p.2.2 r s) := by
  simp only [movInstrs, List.mem_cons, List.not_mem_nil, or_false] at h
  rcases h with rfl | rfl | rfl | rfl | rfl | rfl | rfl | rfl | rfl <;> exact ⟨by decide, fun _ _ => rfl⟩

theorem movCompletes {mk : MovRec → Instr} {n L : Nat} (h : (mk, n, L) ∈ movInstrs) : MovCompletes mk n L := by
  intro r s h1 h2 hs hd
  obtain ⟨hn, hx⟩ := exec_mov h
  rw [hx, mov_ready hn (indexOnDirect_eq_false.mpr ⟨h1, h2⟩) hs hd]
  rfl

/-- Settles O56: each of the nine is in the list with its widths. -/
theorem movResults : Obligations.MovResults := by
  refine ⟨?_, ?_, ?_, ?_, ?_, ?_, ?_, ?_, ?_⟩ <;> exact movCompletes (by simp [movInstrs])

/-- Settles O58: the test of the index flags comes first. -/
theorem indexOnDirectOperandIsRefused : Obligations.IndexOnDirectOperandIsRefused := by
  intro p hp r s h
  have hindex : indexOnDirect r = true := by
    rcases h with ⟨hdirect, hidx⟩ | ⟨hdirect, hidx⟩ <;> simp [indexOnDirect, hdirect, hidx]
  rw [(exec_mov hp).2, mov_index hindex]
  rfl

/-- Settles O59: neither access of a MOV keeps anything when it fails. -/
theorem movOutOfBoundsIsTaken : Obligations.MovOutOfBoundsIsTaken := by
  intro p hp r s h1 h2 h
  rw [(exec_mov hp).2, mov_not_ready (indexOnDirect_eq_false.mpr ⟨h1, h2⟩) h]
  rfl

/-- Settles O60: a MOV that completes leaves a value in operand1. -/
theorem movFrame : Obligations.MovFrame := by
  intro p hp r s t hwf hx
  obtain ⟨hn, hexec⟩ := exec_mov hp
  refine operandWritten_conclude _ _ _ ((hexec r s).symm.trans hx) fun u hu => ?_
  obtain ⟨-, v, rfl⟩ := mov_ok hn hu
  exact movResult_operandWritten hwf v

/-- An index of `L` bytes as a two's-complement number (30_encoding.md R72). -/
theorem sext_eq_ofInt {L : Nat} (hL : 0 < L) {idx : Word} (h : idx.toNat < 2 ^ (8 * L)) :
    sext (8 * L) idx =
      BitVec.ofInt 64 (if idx.toNat < 2 ^ (8 * L - 1) then (idx.toNat : Int) else (idx.toNat : Int) - 2 ^ (8 * L)) := by
  have hhalf : 2 ^ (8 * L) = 2 * 2 ^ (8 * L - 1) := (mul_pow_sub_one (by omega) 2).symm
  have hnat : (idx.setWidth (8 * L)).toNat = idx.toNat := by rw [BitVec.toNat_setWidth, Nat.mod_eq_of_lt h]
  have hint : (idx.setWidth (8 * L)).toInt =
      if idx.toNat < 2 ^ (8 * L - 1) then (idx.toNat : Int) else (idx.toNat : Int) - 2 ^ (8 * L) := by
    rw [BitVec.toInt_eq_toNat_cond, hnat]
    push_cast
    congr 1
    rw [hhalf, eq_iff_iff]
    omega
  exact congrArg (BitVec.ofInt 64) hint

/-- Settles O57: the displacement is the index sign-extended from its width. -/
theorem movIndexIsSignedDisplacement : Obligations.MovIndexIsSignedDisplacement := by
  intro s op L idx hL hidx
  have hpos : 0 < L := by
    simp only [List.mem_cons, List.not_mem_nil, or_false] at hL
    omega
  refine ⟨?plain, ?indexed⟩
  case plain => simp [movAddress]
  case indexed => rw [movAddress, if_pos rfl, sext_eq_ofInt hpos hidx]

end Sys2Proof.Machine
